-- ==== Sys2Proof/Word.lean ====
section
/-! DEFINITION. The word types of the unit: a byte of the slice (20_memory.md R25), the 32-bit integers of
40_varint.md R68 and the 64-bit window and double of 10_state.md R12, R13. -/

namespace Sys2Proof

/-- One byte of the slice `S`: 8 bits. -/
abbrev Byte := BitVec 8

/-- The integer word of the unit: "32 bits wide unless a narrower width is named" (R68). -/
abbrev Word32 := BitVec 32

/-- The width of `WIN` and `DOUT`: eight byte lanes. -/
abbrev Word64 := BitVec 64

end Sys2Proof
end

