-- ==== Sys2Proof/Config.lean ====
section
/-! DEFINITION. What an implementation fixes: the parameters of 00_scope.md R5, the one open parameter `LAT`, and the
model's own choice of what an unlisted byte of the host's buffer reads as (log 5). -/

namespace Sys2Proof.Config

/-- `WIN_BYTES`: byte lanes of the window (R5). -/
def winBytes : Nat := 8

/-- `U29_MAXBYTES`: "decoding never reads more than 4 bytes" (R5). -/
def u29MaxBytes : Nat := 4

/-- `REF_BIAS`, the constant XORed into a reference index (R5, R56). -/
def refBias : Word32 := 0x10000000#32

/-- The modulus of the 29-bit two's-complement reading, subtracted by I29 (R67). -/
def u29Modulus : Word32 := 0x20000000#32

/-- The mask of the 29 data bits of a varint token (R58). -/
def u29Mask : Word32 := 0x1FFFFFFF#32

/-- The largest value of `REM`, presented by a requester whose buffer is longer (R27). -/
def remMax : Nat := 0xFFFFFFFF

/-- The code of `DENC`, the one operation whose `WIN` is a value and no slice (R46, R12). -/
def opDenc : BitVec 3 := 6#3

/-- DESIGN CHOICE (log 5): what a byte of the host's buffer reads as when no cell lists it. -/
def unlistedByte : Byte := 0#8

/-- `LAT`, cycles from request to response: OPEN (R5, R122). "No rule of this spec and no rule of a model depends on
it": no definition reads it. -/
opaque LAT : Nat

end Sys2Proof.Config
end

