-- ==== Sys2Proof/Syntax.lean ====
section
/-! DEFINITION. The rows of spec/opcode_table.json as one inductive: seven operations and the reserved code, each a
whole request (30_encoding.md R45: `OP` is the constructor, `WIN` and `REM` its arguments), and the six wire formats,
which are data the unit parses and no operations (log 2). A line of a host program (R49, R87) stands beside them. -/

namespace Sys2Proof

/-- One constructor per row of spec/opcode_table.json. -/
inductive Instr where
  /-- `U29`, code 0 (R66). -/
  | u29 (win : Word64) (rem : Word32)
  /-- `I29`, code 1 (R67). -/
  | i29 (win : Word64) (rem : Word32)
  /-- `STRH`, code 2 (R75). -/
  | strh (win : Word64) (rem : Word32)
  /-- `STRX`, code 3 (R76). -/
  | strx (win : Word64) (rem : Word32)
  /-- `REFH`, code 4 (R80). -/
  | refh (win : Word64) (rem : Word32)
  /-- `DDEC`, code 5 (R70). -/
  | ddec (win : Word64) (rem : Word32)
  /-- `DENC`, code 6 (R71): `win` is the operand `X`. -/
  | denc (win : Word64) (rem : Word32)
  /-- `RESERVED7`, code 7 (R47, R97): "not an instruction: the one reserved request code". -/
  | reserved7 (win : Word64) (rem : Word32)
  /-- `VARINT1`, wire format `0aaaaaaa` (R51). -/
  | varint1 (a : BitVec 7)
  /-- `VARINT2`, wire format `1aaaaaaa 0bbbbbbb` (R51). -/
  | varint2 (a b : BitVec 7)
  /-- `VARINT3`, wire format `1aaaaaaa 1bbbbbbb 0ccccccc` (R51). -/
  | varint3 (a b c : BitVec 7)
  /-- `VARINT4`, wire format `1aaaaaaa 1bbbbbbb 1ccccccc dddddddd` (R51). -/
  | varint4 (a b c : BitVec 7) (d : Byte)
  /-- `HEADER`, wire format: payload `h[28:1]` and discriminator `h[0]` (R55). -/
  | header (p : BitVec 28) (d : BitVec 1)
  /-- `DOUBLE`, wire format: the pattern `P` of 8 big-endian bytes (R57). -/
  | double (p : Word64)
deriving DecidableEq, Repr

/-- One line of a host program (R49, R87): an operation code and one 64-bit operand. For `DENC` the operand is `X`.
For every other code it is what the host drives on the lanes that carry no slice byte: "any value otherwise" (R85;
log 6). -/
structure Line where
  op : BitVec 3
  x  : Word64
deriving DecidableEq, Repr

end Sys2Proof
end

