-- ==== Sys2Proof/WellFormed.lean ====
section
/-! DEFINITION. Which instructions and program lines a requester may issue: "`OP` holds one of the codes 0 to 6"
(70_reset_and_hazards.md R116 item 1). Two checks: an instruction is a request and no wire format, and its code is not
the reserved one. No value of `WIN` or `REM` is illegal (30_encoding.md R47), so nothing else is checked. -/

namespace Sys2Proof

/-- The operation code of a request row; a wire format has none (R46). -/
def Instr.op? : Instr → Option (BitVec 3)
  | .u29 _ _ => some 0#3
  | .i29 _ _ => some 1#3
  | .strh _ _ => some 2#3
  | .strx _ _ => some 3#3
  | .refh _ _ => some 4#3
  | .ddec _ _ => some 5#3
  | .denc _ _ => some 6#3
  | .reserved7 _ _ => some 7#3
  | .varint1 _ => none
  | .varint2 _ _ => none
  | .varint3 _ _ _ => none
  | .varint4 _ _ _ _ => none
  | .header _ _ => none
  | .double _ => none

/-- The rows of kind `instruction` and `reserved`: what the request ports can carry. -/
def Instr.isRequest (i : Instr) : Bool := i.op?.isSome

/-- A request whose code is one of 0 to 6 (R116 item 1). -/
def Instr.wellFormed (i : Instr) : Bool := i.isRequest && i.op? != some 7#3

/-- A program line whose code is one of 0 to 6 (R116 item 1). -/
def Line.wellFormed (l : Line) : Bool := l.op != 7#3

end Sys2Proof
end

