-- ==== Sys2Proof/Decode.lean ====
section
/-! DEFINITION. Decoding, total on any bytes and rejecting by name, and the encoder.
A request is the 99-bit word `REQ = REM ‖ WIN ‖ OP` of 30_encoding.md R45; DESIGN CHOICE (log 1): its byte image is 13
bytes, least significant byte first, the top five bits zero. A varint token or a double is its own wire bytes (R51,
R57); DESIGN CHOICE (log 2): a header value `h` of 29 bits (R55) is the four bytes of that number, most significant
first. The lengths 13, 8, 4 and the first byte tell the forms apart, so no bytes have two readings. -/

namespace Sys2Proof

/-- Why a byte image is no row of the table. -/
inductive DecodeError where
  /-- No row has an image of this many bytes. -/
  | badLength
  /-- A request image with a bit set above bit 98. -/
  | padBitSet
  /-- A varint token whose last byte still has the continuation flag set (R52). -/
  | tokenCutShort
  /-- Bytes follow the byte that ends the token (R52). -/
  | bytesAfterToken
deriving DecidableEq, Repr

/-! ## Byte order helpers -/

/-- The `k` low bytes of a number, least significant first. -/
def bytesLE : Nat → Nat → List Byte
  | 0, _ => []
  | k + 1, w => BitVec.ofNat 8 w :: bytesLE k (w / 256)

/-- The number whose bytes, least significant first, are given. -/
def valueLE : List Byte → Nat
  | [] => 0
  | b :: bs => b.toNat + 256 * valueLE bs

/-- The `k` low bytes of a number, most significant first: the wire order of R29 and R30. -/
def bytesBE (k w : Nat) : List Byte := (bytesLE k w).reverse

/-- The number whose bytes, most significant first, are given. -/
def valueBE (bs : List Byte) : Nat := valueLE bs.reverse

/-! ## The fields of a byte -/

/-- The continuation flag, bit 7 of a token byte (R29). -/
def contFlag (b : Byte) : Bool := b.getLsbD 7

/-- The low seven data bits of a token byte (R29). -/
def dataBits (b : Byte) : BitVec 7 := b.extractLsb' 0 7

/-- A token byte from its continuation flag and its data bits (R51). -/
def tokenByte (flag : Bool) (d : BitVec 7) : Byte := BitVec.ofBool flag ++ d

/-! ## Requests -/

/-- The 99-bit listing word `REQ[98:0] = REM[31:0] ‖ WIN[63:0] ‖ OP[2:0]` (R45). -/
def reqWord (op : BitVec 3) (win : Word64) (rem : Word32) : BitVec 99 := rem ++ win ++ op

/-- The row a code stands for (R46; code 7 is reserved, R47). -/
def Instr.ofRequest (op : BitVec 3) (win : Word64) (rem : Word32) : Instr :=
  match op.toNat with
  | 0 => .u29 win rem
  | 1 => .i29 win rem
  | 2 => .strh win rem
  | 3 => .strx win rem
  | 4 => .refh win rem
  | 5 => .ddec win rem
  | 6 => .denc win rem
  | _ => .reserved7 win rem

/-- The request a 99-bit listing word spells (R45). -/
def decodeReqWord (w : BitVec 99) : Instr :=
  .ofRequest (w.extractLsb' 0 3) (w.extractLsb' 3 64) (w.extractLsb' 67 32)

/-- A 13-byte image: the listing word with five zero bits above it (log 1). -/
def decodeRequest (bs : List Byte) : Except DecodeError Instr :=
  if valueLE bs < 2 ^ 99 then .ok (decodeReqWord (BitVec.ofNat 99 (valueLE bs))) else .error .padBitSet

/-! ## Wire formats -/

/-- The varint token a byte sequence starts with, and the bytes after it: n is settled by the continuation flags of the
first three bytes, and the fourth byte's bit 7 is data (R51, R52). -/
def decodeToken : List Byte → Except DecodeError (Instr × List Byte)
  | [] => .error .tokenCutShort
  | b0 :: r0 =>
    if contFlag b0 then
      match r0 with
      | [] => .error .tokenCutShort
      | b1 :: r1 =>
        if contFlag b1 then
          match r1 with
          | [] => .error .tokenCutShort
          | b2 :: r2 =>
            if contFlag b2 then
              match r2 with
              | [] => .error .tokenCutShort
              | b3 :: r3 => .ok (.varint4 (dataBits b0) (dataBits b1) (dataBits b2) b3, r3)
            else .ok (.varint3 (dataBits b0) (dataBits b1) (dataBits b2), r2)
        else .ok (.varint2 (dataBits b0) (dataBits b1), r1)
    else .ok (.varint1 (dataBits b0), r0)

/-- One whole token and nothing after it. -/
def decodeWholeToken (bs : List Byte) : Except DecodeError Instr :=
  match decodeToken bs with
  | .error e => .error e
  | .ok (i, []) => .ok i
  | .ok (_, _ :: _) => .error .bytesAfterToken

/-- Whether four bytes are a 29-bit number, most significant first. -/
def isHeaderImage (bs : List Byte) : Bool := bs.length == 4 && valueBE bs < 2 ^ 29

/-- The header value `h`, split into payload `h[28:1]` and discriminator `h[0]` (R55). -/
def decodeHeaderValue (h : BitVec 29) : Instr := .header (h.extractLsb' 1 28) (h.extractLsb' 0 1)

/-! ## The decoder and the encoder -/

/-- The row a byte image stands for. -/
def decode (bs : List Byte) : Except DecodeError Instr :=
  if bs.length = 13 then decodeRequest bs
  else if bs.length = 8 then .ok (.double (BitVec.ofNat 64 (valueBE bs)))
  else if isHeaderImage bs then .ok (decodeHeaderValue (BitVec.ofNat 29 (valueBE bs)))
  else if bs.length = 0 ∨ 4 < bs.length then .error .badLength
  else decodeWholeToken bs

/-- The byte image of a request (log 1). -/
def requestImage (op : BitVec 3) (win : Word64) (rem : Word32) : List Byte :=
  bytesLE 13 (reqWord op win rem).toNat

/-- The byte image of every row. -/
def encode : Instr → List Byte
  | .u29 win rem => requestImage 0#3 win rem
  | .i29 win rem => requestImage 1#3 win rem
  | .strh win rem => requestImage 2#3 win rem
  | .strx win rem => requestImage 3#3 win rem
  | .refh win rem => requestImage 4#3 win rem
  | .ddec win rem => requestImage 5#3 win rem
  | .denc win rem => requestImage 6#3 win rem
  | .reserved7 win rem => requestImage 7#3 win rem
  | .varint1 a => [tokenByte false a]
  | .varint2 a b => [tokenByte true a, tokenByte false b]
  | .varint3 a b c => [tokenByte true a, tokenByte true b, tokenByte false c]
  | .varint4 a b c d => [tokenByte true a, tokenByte true b, tokenByte true c, d]
  | .header p d => bytesBE 4 (p ++ d).toNat
  | .double p => bytesBE 8 p.toNat

/-! ## Words as the opcode table numbers them -/

/-- The wire bytes of a table word of 8, 16, 24, 32 or 64 bits, when they are a wire format: the table writes `S[0]` as
the most significant byte of the number. A word of 8 bits below 8 is left to the request rows, whose three bits the
table gives (log 2). -/
def wireImage (nbits w : Nat) : Option (List Byte) :=
  if (nbits = 8 ∧ 8 ≤ w) ∨ nbits = 16 ∨ nbits = 24 ∨ nbits = 32 ∨ nbits = 64 then
    match decode (bytesBE (nbits / 8) w) with
    | .ok _ => some (bytesBE (nbits / 8) w)
    | .error _ => none
  else none

/-- The byte image of a table word: a wire format's own bytes, else the request word with every bit above it zero. -/
def tableImage (nbits w : Nat) : List Byte :=
  match wireImage nbits w with
  | some bs => bs
  | none => bytesLE 13 w

/-- The instruction the decoder reads from a word numbered as spec/opcode_table.json numbers it. -/
def decodeTableWord (nbits w : Nat) : Option Instr := (decode (tableImage nbits w)).toOption

end Sys2Proof
end

