-- ==== Sys2Proof/Machine/State.lean ====
section
/-! DEFINITION. The state: the request and response ports of the unit (10_state.md R12, R13), the requests offered to it,
and the data of the host driver under which programs run (44_sequencing.md R85 to R87). The unit itself has no
architectural state (R10, R15): no field here is read by an operation except the request it is given. -/

namespace Sys2Proof.Machine

/-- The outcome of an operation (R21). The code 3 is "never produced by the unit", so it has no constructor. -/
inductive Status where
  | ok
  | truncated
  | illegalOp
deriving DecidableEq, Repr

/-- What a header announced (R22). -/
inductive Kind where
  | none
  | reference
  | inline
  | empty
deriving DecidableEq, Repr

/-- The exceptions the unit can raise (R95). `AllocationFailure` is "never raised by the unit" (R98). -/
inductive Trap where
  | truncatedInput
  | illegalOp
deriving DecidableEq, Repr

/-- The six response fields, "all produced together by one operation" (R13). -/
structure Response where
  status : Status
  kind   : Kind
  value  : Word32
  hb     : BitVec 3
  nb     : Word32
  dout   : Word64
deriving DecidableEq, Repr

/-- The bytes of the host's buffer `BUF` by offset (R85), as plain data: offsets strictly rising, no cell holding what an
unlisted offset reads as. -/
abbrev Memory := List Host.Cell

/-- Every offset of a cell is above `a`, offsets rise strictly, no cell holds the unlisted byte. -/
def Memory.wfAbove : Nat → Memory → Bool
  | _, [] => true
  | a, (k, v) :: rest => decide (a ≤ k) && v != Config.unlistedByte && Memory.wfAbove (k + 1) rest

/-- The canonical form of memory: equal contents are equal data. -/
def Memory.wf (m : Memory) : Bool := Memory.wfAbove 0 m

/-- The machine: ports, offered requests, host driver. -/
structure State where
  /-- `OP[2:0]` of the request last presented (R12). -/
  op        : BitVec 3
  /-- `WIN[63:0]` of the request last presented (R12). -/
  win       : Word64
  /-- `REM[31:0]` of the request last presented (R12). -/
  rem       : Word32
  /-- The response ports (R13). -/
  rsp       : Response
  /-- Byte images of the requests offered and not yet answered, oldest first (R122; log 7). -/
  requests  : List (List Byte)
  /-- The driver's buffer `BUF` (R85). -/
  mem       : Memory
  /-- The length `LEN` of the driver's buffer (R85). -/
  len       : Nat
  /-- The driver's cursor `cur` (R85, R86). -/
  cur       : Nat
  /-- The operations of the driver's program still to run (R87). -/
  program   : List Line
  /-- The responses of the driver's program so far, oldest first (R87). -/
  responses : List Response
deriving DecidableEq, Repr

/-- What stops the model. No exception of the unit is one of these: an exception is a next state (R101; log 8). -/
inductive Fault where
  /-- Raised by `step` when the driver issues a line with its cursor beyond its buffer, a state that `0 ≤ cur ≤ LEN`
  (R85) excludes. Safe: nothing is claimed of such a driver (log 9). -/
  | cursorBeyondBuffer
deriving DecidableEq, Repr

/-- What the model gives no meaning. -/
inductive Refusal where
  /-- Raised by an arm of `exec` whose instruction has no meaning yet. Safe. No arm raises it. -/
  | notModelled (mnemonic : String)
  /-- Raised by `step` when offered bytes are the image of no row of the table. Safe: no such request can be put on the
  ports (R45; log 1). -/
  | notARequest (e : DecodeError)
  /-- Raised by the six wire-format rows: "no other operation exists" (R46), the table calls each "not an instruction: a
  data token form the unit parses". Safe: the spec gives them no effect as operations (log 2). -/
  | wireFormatNotOperation
deriving DecidableEq, Repr

/-- The response port at reset: DESIGN CHOICE (log 3), the spec leaves it unspecified (R20). -/
def Response.atReset : Response := ⟨.ok, .none, 0#32, 0#3, 0#32, 0#64⟩

/-- The machine after reset: no request pending (R20, R115), ports zero by choice (log 3), the driver with an empty
buffer, its cursor at 0 (R87) and no program (log 4). -/
def State.reset : State where
  op := 0#3
  win := 0#64
  rem := 0#32
  rsp := .atReset
  requests := []
  mem := []
  len := 0
  cur := 0
  program := []
  responses := []

end Sys2Proof.Machine
end

