-- ==== Sys2Proof/Machine/Operands.lean ====
section
/-! DEFINITION. The operands of the unit: lanes and slices (20_memory.md R25 to R28), the shared varint read (40_varint.md
R65) with the closed forms it equals (30_encoding.md R52, R53), the fields of a header (R55, R56), `byteswap64`
(00_scope.md section 5) and the reference encoder `enc_u29` (R58). -/

namespace Sys2Proof.Machine

/-- Lane i of a 64-bit port: bits `8i+7:8i` (R12, R26). -/
def lane (v : Word64) (i : Nat) : Byte := v.extractLsb' (8 * i) 8

/-- The port whose lane i is `f i`. -/
def packLanes (f : Nat → Byte) : Word64 :=
  f 7 ++ f 6 ++ f 5 ++ f 4 ++ f 3 ++ f 2 ++ f 1 ++ f 0

/-- The eight bytes read most significant first: lane 0 on top (R30, R57, R70). -/
def concatLanes (v : Word64) : Word64 :=
  lane v 0 ++ lane v 1 ++ lane v 2 ++ lane v 3 ++ lane v 4 ++ lane v 5 ++ lane v 6 ++ lane v 7

/-- `byteswap64(v)`: byte i and byte 7 - i exchanged (00_scope.md section 5). -/
def byteswap64 (v : Word64) : Word64 := packLanes fun i => lane v (7 - i)

/-- The slice a request gives: its first eight bytes and its length (R25, R26). -/
structure Slice where
  win : Word64
  rem : Word32
deriving DecidableEq, Repr

/-- `MemRead(i, 1)`: the byte `S[i]`, or `TruncatedInput` when `i ≥ REM` (R33, 00_scope.md section 6). -/
def Slice.byte (sl : Slice) (i : Nat) : Except Trap Byte :=
  if i < sl.rem.toNat then .ok (lane sl.win i) else .error .truncatedInput

/-! ## The varint token -/

/-- The loop of `read_u29`, at most `k` more rounds from byte `i`: fold in the seven data bits of each byte whose
continuation flag is set (R65). -/
def foldGroups (sl : Slice) : Nat → Nat → Word32 → Except Trap (Nat × Word32)
  | 0, i, acc => .ok (i, acc)
  | k + 1, i, acc =>
    match sl.byte i with
    | .error t => .error t
    | .ok b =>
      if contFlag b then foldGroups sl k (i + 1) (acc <<< 7 ||| (dataBits b).setWidth 32) else .ok (i, acc)

/-- The last fold of `read_u29`: seven bits of the final byte of a 1-, 2- or 3-byte token, all eight of the fourth
(R65). `n` is the total of bytes, the final byte included. -/
def foldFinal (n : Nat) (acc : Word32) (b : Byte) : Word32 :=
  if n < Config.u29MaxBytes then acc <<< 7 ||| (dataBits b).setWidth 32 else acc <<< 8 ||| b.setWidth 32

/-- `read_u29()`: the 29-bit value and the length of the token at `S[0]` (R65). -/
def readU29 (sl : Slice) : Except Trap (BitVec 29 × Nat) :=
  match foldGroups sl (Config.u29MaxBytes - 1) 0 0#32 with
  | .error t => .error t
  | .ok (i, acc) =>
    match sl.byte i with
    | .error t => .error t
    | .ok b => .ok ((foldFinal (i + 1) acc b).setWidth 29, i + 1)

/-- The token's length by R52: 1 if `S[0][7] = 0`, else 2 if `S[1][7] = 0`, else 3 if `S[2][7] = 0`, else 4. Lanes are
read whatever `REM` is: "the token length rule R52 would find if the slice were long enough" (R65). -/
def tokenLength (win : Word64) : Nat :=
  if contFlag (lane win 0) then
    if contFlag (lane win 1) then
      if contFlag (lane win 2) then 4 else 3
    else 2
  else 1

/-- The token's value by the closed forms of R53. -/
def tokenValue (win : Word64) : Word32 :=
  let g (i : Nat) : Word32 := (dataBits (lane win i)).setWidth 32
  match tokenLength win with
  | 1 => g 0
  | 2 => g 0 <<< 7 ||| g 1
  | 3 => g 0 <<< 14 ||| g 1 <<< 7 ||| g 2
  | _ => g 0 <<< 22 ||| g 1 <<< 15 ||| g 2 <<< 8 ||| (lane win 3).setWidth 32

/-- `sext_32(h[28:0])` as I29 computes it: subtract 0x20000000 when bit 28 is set (R67). -/
def signed29 (h : BitVec 29) : Word32 :=
  if h.getLsbD 28 then h.setWidth 32 - Config.u29Modulus else h.setWidth 32

/-! ## The header -/

/-- The discriminator `h[0]` (R55). -/
def discriminator (h : BitVec 29) : Bool := h.getLsbD 0

/-- The payload `h >> 1` as a 32-bit value (R55, R68). -/
def payload (h : BitVec 29) : Word32 := h.setWidth 32 >>> 1

/-- The reference index `(h >> 1) XOR 0x10000000` (R56). -/
def refIndex (h : BitVec 29) : Word32 := payload h ^^^ Config.refBias

/-! ## The reference encoder -/

/-- `enc_u29(v)`: the shortest token of `v` masked to 29 bits, in wire order (R58). A function of the spec, no operation
of the unit. -/
def encU29 (v : Word32) : List Byte :=
  let m := v &&& Config.u29Mask
  if m ≤ 0x7F#32 then [m.setWidth 8]
  else if m ≤ 0x3FFF#32 then [(0x80#32 ||| m >>> 7).setWidth 8, (m &&& 0x7F#32).setWidth 8]
  else if m ≤ 0x1FFFFF#32 then
    [(0x80#32 ||| m >>> 14).setWidth 8, (0x80#32 ||| (m >>> 7 &&& 0x7F#32)).setWidth 8, (m &&& 0x7F#32).setWidth 8]
  else
    [(0x80#32 ||| m >>> 22).setWidth 8, (0x80#32 ||| (m >>> 15 &&& 0x7F#32)).setWidth 8,
      (0x80#32 ||| (m >>> 8 &&& 0x7F#32)).setWidth 8, (m &&& 0xFF#32).setWidth 8]

/-- The slice starts with these bytes: they exist and lie in the lanes from lane 0 on (R25, R26). -/
abbrev Slice.startsWith (sl : Slice) (bs : List Byte) : Prop :=
  bs.length ≤ sl.rem.toNat ∧ ∀ i < bs.length, bs[i]? = some (lane sl.win i)

end Sys2Proof.Machine
end

