-- ==== Sys2Proof/Machine/Flags.lean ====
section
/-! DEFINITION. The unit has no flags (10_state.md R16). What stands in their place are the two outcome fields of a
response: `STATUS` (R21) and `KIND` (R22), with their codes. -/

namespace Sys2Proof.Machine

/-- The code on `STATUS[1:0]` (R21). -/
def Status.code : Status → BitVec 2
  | .ok => 0#2
  | .truncated => 1#2
  | .illegalOp => 2#2

/-- The code on `KIND[1:0]` (R22). -/
def Kind.code : Kind → BitVec 2
  | .none => 0#2
  | .reference => 1#2
  | .inline => 2#2
  | .empty => 3#2

/-- The `STATUS` an exception is reported by (R95). -/
def Trap.status : Trap → Status
  | .truncatedInput => .truncated
  | .illegalOp => .illegalOp

/-- The `KIND` of a string header: the sentinel `h = 1` is tested first, on the decoded value, then the discriminator
(R56 (b), R75, R76). -/
def stringKind (h : BitVec 29) : Kind :=
  if h = 1#29 then .empty else if discriminator h then .inline else .reference

/-- The `KIND` of a reference header, which has no sentinel (R56, R80). -/
def referenceKind (h : BitVec 29) : Kind := if discriminator h then .inline else .reference

end Sys2Proof.Machine
end

