-- ==== Sys2Proof/Machine/Ops.lean ====
section
/-! DEFINITION. The named operations over memory and ports: the host's buffer (44_sequencing.md R85), a request taken
from the ports (10_state.md R12), a response produced whole (R13), and taking an exception (60_exceptions.md R101). -/

namespace Sys2Proof.Machine

/-! ## The host's buffer -/

/-- The byte memory holds at an offset; an unlisted offset reads as `Config.unlistedByte` (log 5). -/
def Memory.read : Memory → Nat → Byte
  | [], _ => Config.unlistedByte
  | (k, v) :: rest, a => if k = a then v else Memory.read rest a

/-- The cell list for one byte: nothing when the byte is what an unlisted offset reads as. -/
def Memory.cell (a : Nat) (b : Byte) : Memory := if b = Config.unlistedByte then [] else [(a, b)]

/-- Memory with one byte written, in canonical form. -/
def Memory.write : Memory → Nat → Byte → Memory
  | [], a, b => Memory.cell a b
  | (k, v) :: rest, a, b =>
    if a < k then Memory.cell a b ++ (k, v) :: rest
    else if a = k then Memory.cell a b ++ rest
    else (k, v) :: Memory.write rest a b

/-- Memory with consecutive bytes written from an offset on. -/
def Memory.writeBytes : Memory → Nat → List Byte → Memory
  | m, _, [] => m
  | m, a, b :: bs => Memory.writeBytes (m.write a b) (a + 1) bs

/-- The byte `BUF[a]`, which exists when `a < LEN` (R85). -/
def State.bufByte (s : State) (a : Nat) : Option Byte :=
  if a < s.len then some (s.mem.read a) else none

/-- The host loads a buffer: `BUF` holds exactly these bytes, `LEN` is their count, `cur` is 0 (R85, R87). -/
def State.setBuffer (s : State) (bs : List Byte) : State :=
  { s with mem := Memory.writeBytes [] 0 bs, len := bs.length, cur := 0 }

/-- The host loads a buffer and a program: the start of a run (R87). -/
def State.load (s : State) (bs : List Byte) (ls : List Line) : State :=
  { s.setBuffer bs with program := ls, responses := [] }

/-- The bytes of a 64-bit port in lane order: the order DENC's wire bytes are sent in (R71). -/
def laneBytes (v : Word64) : List Byte := (List.range Config.winBytes).map (lane v)

/-- The host's act between the two steps of program P5 of 95_test_vectors.md: "`BUF` <- lanes 0..7 of `DOUT`;
`LEN` <- 8; `cur` <- 0". -/
def State.storeDout (s : State) : State := s.setBuffer (laneBytes s.rsp.dout)

/-- The bytes of the host's buffer at `n` offsets from `a` on; an offset beyond the buffer gives none. -/
def State.bufBytes (s : State) (a n : Nat) : List (Option Byte) :=
  (List.range n).map fun i => s.bufByte (a + i)

/-- The body of the literal just announced by the response ports, at offsets `HB` to `HB + VALUE - 1` from the cursor
the request was made at (R42, R119 (c)). Fetching it "is the requester's work". -/
def State.literalBody (s : State) (oldCur : Nat) : List (Option Byte) :=
  s.bufBytes (oldCur + s.rsp.hb.toNat) s.rsp.value.toNat

/-! ## Ports -/

/-- The request on the ports (R12). -/
def State.present (s : State) (op : BitVec 3) (win : Word64) (rem : Word32) : State :=
  { s with op := op, win := win, rem := rem }

/-- `done(kind, value, hb, nb, dout)`: the response with `STATUS = OK` (00_scope.md section 6). -/
def Response.done (kind : Kind) (value : Word32) (hb : Nat) (nb : Word32) (dout : Word64) : Response :=
  ⟨.ok, kind, value, BitVec.ofNat 3 hb, nb, dout⟩

/-- The fault response: the exception's code and zeros (R23, R95). -/
def Response.fault (t : Trap) : Response := ⟨t.status, .none, 0#32, 0#3, 0#32, 0#64⟩

/-- The response ports take a response, whole (R13). -/
def State.respond (s : State) (r : Response) : State := { s with rsp := r }

/-- TAKING AN EXCEPTION: "the delivery of the fault response; that is the whole of it" (R101). No state is saved, no
mode changes, control goes nowhere. There is no return beside it: "no trap-return operation and nothing to restore"
(R102). -/
def State.takeException (s : State) (t : Trap) : State := s.respond (.fault t)

/-- How an operation ends: with its response, or with the exception it raised. -/
def State.conclude (s : State) : Except Trap Response → State
  | .ok r => s.respond r
  | .error t => s.takeException t

/-- One operation, indivisible (R14): the request on the ports, then the response or the exception. -/
def State.serve (s : State) (op : BitVec 3) (win : Word64) (rem : Word32) (result : Except Trap Response) : State :=
  (s.present op win rem).conclude result

/-- The operations that start with `read_u29`: go on with the value and the length, or raise what it raised (R65). -/
def withToken (sl : Slice) (k : BitVec 29 → Nat → Except Trap Response) : Except Trap Response :=
  match readU29 sl with
  | .error t => .error t
  | .ok (h, n) => k h n

end Sys2Proof.Machine
end

