-- ==== Sys2Proof/Machine/Double.lean ====
section
/-! DEFINITION. The double operations DDEC and DENC (41_double.md R70, R71). -/

namespace Sys2Proof.Machine

/-- What DDEC computes from its slice: `S[0] ‖ ... ‖ S[7]`, when all eight bytes exist (R70). -/
def ddecResult (sl : Slice) : Except Trap Response :=
  if sl.rem < BitVec.ofNat 32 Config.winBytes then .error .truncatedInput
  else .ok (.done .none 0#32 0 (BitVec.ofNat 32 Config.winBytes) (concatLanes sl.win))

/-- `DDEC`: eight wire bytes to a double (R70). -/
def execDdec (win : Word64) (rem : Word32) (s : State) : Host.Outcome State Fault Refusal :=
  .next (s.serve 5#3 win rem (ddecResult ⟨win, rem⟩))

/-- Wire byte `W[i] = X[63-8i : 56-8i]` of a double (R57, R71). -/
def wireByte (x : Word64) (i : Nat) : Byte := x.extractLsb' (56 - 8 * i) 8

/-- What DENC computes from its operand: lane i of `DOUT` is wire byte `W[i]` (R71). -/
def dencResult (x : Word64) : Except Trap Response :=
  .ok (.done .none 0#32 0 0#32 (packLanes (wireByte x)))

/-- `DENC`: a double to eight wire bytes (R71); `REM` is ignored. -/
def execDenc (win : Word64) (rem : Word32) (s : State) : Host.Outcome State Fault Refusal :=
  .next (s.serve 6#3 win rem (dencResult win))

end Sys2Proof.Machine
end

