-- ==== Sys2Proof/Machine/Reference.lean ====
section
/-! DEFINITION. The reference operation REFH (43_reference.md R80). -/

namespace Sys2Proof.Machine

/-- What REFH computes from its slice: the index "computed whatever h[0] is" (R80). -/
def refhResult (sl : Slice) : Except Trap Response :=
  withToken sl fun h n => .ok (.done (referenceKind h) (refIndex h) n (BitVec.ofNat 32 n) 0#64)

/-- `REFH`: decode a generic reference-or-inline header (R80). -/
def execRefh (win : Word64) (rem : Word32) (s : State) : Host.Outcome State Fault Refusal :=
  .next (s.serve 4#3 win rem (refhResult ⟨win, rem⟩))

end Sys2Proof.Machine
end

