-- ==== Sys2Proof/Machine/Reserved.lean ====
section
/-! DEFINITION. The reserved code (60_exceptions.md R97) and the six wire-format rows of the opcode table, which are no
operations (30_encoding.md R46; log 2). -/

namespace Sys2Proof.Machine

/-- `OP = 7`: takes `IllegalOp` "whatever `WIN` and `REM` are" (R97), before any byte is examined (R99). -/
def execReserved7 (win : Word64) (rem : Word32) (s : State) : Host.Outcome State Fault Refusal :=
  .next (s.serve 7#3 win rem (.error .illegalOp))

/-- `VARINT1` is data, no operation (R46, R51). -/
def execVarint1 (_a : BitVec 7) (_s : State) : Host.Outcome State Fault Refusal :=
  .refused .wireFormatNotOperation

/-- `VARINT2` is data, no operation (R46, R51). -/
def execVarint2 (_a _b : BitVec 7) (_s : State) : Host.Outcome State Fault Refusal :=
  .refused .wireFormatNotOperation

/-- `VARINT3` is data, no operation (R46, R51). -/
def execVarint3 (_a _b _c : BitVec 7) (_s : State) : Host.Outcome State Fault Refusal :=
  .refused .wireFormatNotOperation

/-- `VARINT4` is data, no operation (R46, R51). -/
def execVarint4 (_a _b _c : BitVec 7) (_d : Byte) (_s : State) : Host.Outcome State Fault Refusal :=
  .refused .wireFormatNotOperation

/-- `HEADER` is data, no operation (R46, R55). -/
def execHeader (_p : BitVec 28) (_d : BitVec 1) (_s : State) : Host.Outcome State Fault Refusal :=
  .refused .wireFormatNotOperation

/-- `DOUBLE` is data, no operation (R46, R57). -/
def execDouble (_p : Word64) (_s : State) : Host.Outcome State Fault Refusal :=
  .refused .wireFormatNotOperation

end Sys2Proof.Machine
end

