-- ==== Sys2Proof/Machine/Strings.lean ====
section
/-! DEFINITION. The string operations STRH and STRX (42_string.md R75, R76). -/

namespace Sys2Proof.Machine

/-- `VALUE` of a string header: 0 for the sentinel, the biased index of a reference, the bare length of a literal
(R75, R76). -/
def stringValue (h : BitVec 29) : Word32 :=
  match stringKind h with
  | .empty => 0#32
  | .reference => refIndex h
  | .inline => payload h
  | .none => 0#32

/-- What STRH computes from its slice: the header alone, `NB = HB` (R75). -/
def strhResult (sl : Slice) : Except Trap Response :=
  withToken sl fun h n => .ok (.done (stringKind h) (stringValue h) n (BitVec.ofNat 32 n) 0#64)

/-- `STRH`: decode a string header (R75). -/
def execStrh (win : Word64) (rem : Word32) (s : State) : Host.Outcome State Fault Refusal :=
  .next (s.serve 2#3 win rem (strhResult ⟨win, rem⟩))

/-- What STRX computes from its slice: for a literal the body of `L` bytes must fit, `REM < n + L` raises, and `NB`
counts it (R76). The body bytes are not examined (R42). -/
def strxResult (sl : Slice) : Except Trap Response :=
  withToken sl fun h n =>
    match stringKind h with
    | .inline =>
      if sl.rem < BitVec.ofNat 32 n + payload h then .error .truncatedInput
      else .ok (.done .inline (payload h) n (BitVec.ofNat 32 n + payload h) 0#64)
    | k => .ok (.done k (stringValue h) n (BitVec.ofNat 32 n) 0#64)

/-- `STRX`: decode a string header and bound the string's body (R76). -/
def execStrx (win : Word64) (rem : Word32) (s : State) : Host.Outcome State Fault Refusal :=
  .next (s.serve 3#3 win rem (strxResult ⟨win, rem⟩))

end Sys2Proof.Machine
end

