-- ==== Sys2Proof/Machine/Varint.lean ====
section
/-! DEFINITION. The varint operations U29 and I29 (40_varint.md R66, R67). -/

namespace Sys2Proof.Machine

/-- What U29 computes from its slice (R66). -/
def u29Result (sl : Slice) : Except Trap Response :=
  withToken sl fun h n => .ok (.done .none (h.setWidth 32) n (BitVec.ofNat 32 n) 0#64)

/-- `U29`: decode an unsigned varint (R66). -/
def execU29 (win : Word64) (rem : Word32) (s : State) : Host.Outcome State Fault Refusal :=
  .next (s.serve 0#3 win rem (u29Result ⟨win, rem⟩))

/-- What I29 computes from its slice (R67). -/
def i29Result (sl : Slice) : Except Trap Response :=
  withToken sl fun h n => .ok (.done .none (signed29 h) n (BitVec.ofNat 32 n) 0#64)

/-- `I29`: decode a varint as a 29-bit two's-complement value (R67). -/
def execI29 (win : Word64) (rem : Word32) (s : State) : Host.Outcome State Fault Refusal :=
  .next (s.serve 1#3 win rem (i29Result ⟨win, rem⟩))

end Sys2Proof.Machine
end

