-- ==== Sys2Proof/Machine/Dispatch.lean ====
section
/-! DEFINITION. One arm per row of spec/opcode_table.json. -/

namespace Sys2Proof.Machine

/-- The meaning of each row. -/
def exec (i : Instr) (s : State) : Host.Outcome State Fault Refusal :=
  match i with
  | .u29 win rem => Sys2Proof.Machine.execU29 win rem s
  | .i29 win rem => Sys2Proof.Machine.execI29 win rem s
  | .strh win rem => Sys2Proof.Machine.execStrh win rem s
  | .strx win rem => Sys2Proof.Machine.execStrx win rem s
  | .refh win rem => Sys2Proof.Machine.execRefh win rem s
  | .ddec win rem => Sys2Proof.Machine.execDdec win rem s
  | .denc win rem => Sys2Proof.Machine.execDenc win rem s
  | .reserved7 win rem => Sys2Proof.Machine.execReserved7 win rem s
  | .varint1 a => Sys2Proof.Machine.execVarint1 a s
  | .varint2 a b => Sys2Proof.Machine.execVarint2 a b s
  | .varint3 a b c => Sys2Proof.Machine.execVarint3 a b c s
  | .varint4 a b c d => Sys2Proof.Machine.execVarint4 a b c d s
  | .header p d => Sys2Proof.Machine.execHeader p d s
  | .double p => Sys2Proof.Machine.execDouble p s

end Sys2Proof.Machine
end

