-- ==== Sys2Proof/Machine/Driver.lean ====
section
/-! DEFINITION. The host driver (44_sequencing.md R85 to R87): how a program line becomes a request at the cursor, and
what the driver does with the response. -/

namespace Sys2Proof.Machine

/-- `REM = min(LEN - cur, 0xFFFFFFFF)` (R85, R27). -/
def State.lineRem (s : State) : Word32 := BitVec.ofNat 32 (min (s.len - s.cur) Config.remMax)

/-- Lane i of `WIN`: `BUF[cur + i]` when `cur + i < LEN`, else whatever the line drives there (R85; log 6). -/
def State.lineLane (s : State) (l : Line) (i : Nat) : Byte := (s.bufByte (s.cur + i)).getD (lane l.x i)

/-- `WIN` of a line's request: the operand `X` for `DENC`, else the slice's first bytes in lane order (R85). -/
def State.lineWin (s : State) (l : Line) : Word64 :=
  if l.op = Config.opDenc then l.x else packLanes (s.lineLane l)

/-- The request the driver makes of a program line (R85). -/
def State.lineRequest (s : State) (l : Line) : Instr := .ofRequest l.op (s.lineWin l) s.lineRem

/-- The driver after a response: `cur <- cur + NB` on `OK` (R86); at a fault the cursor stays and the run is over, the
rest of the program is not run (R86, R87). The response joins the program's result (R87). -/
def State.chain (s : State) : State :=
  if s.rsp.status = .ok then
    { s with cur := s.cur + s.rsp.nb.toNat, responses := s.responses ++ [s.rsp] }
  else { s with program := [], responses := s.responses ++ [s.rsp] }

/-- The driver has taken its next line off its program (R87). -/
def State.withProgram (s : State) (ls : List Line) : State := { s with program := ls }

/-- The unit has accepted the oldest offered request (R122). -/
def State.withRequests (s : State) (rs : List (List Byte)) : State := { s with requests := rs }

/-- Offer a request image, ahead of every request still waiting. -/
def State.offerFirst (s : State) (bs : List Byte) : State := s.withRequests (bs :: s.requests)

end Sys2Proof.Machine
end

