-- ==== Sys2Proof/Machine/Step.lean ====
section
/-! DEFINITION. One step: one operation (10_state.md R14, 70_reset_and_hazards.md R122). The unit fetches no
instructions (R11): the operation comes with a request, offered whole by a requester (R12) or made by the host driver
of its program's next line (44_sequencing.md R85). Offered requests are answered first (log 7); their responses do not
touch the driver. With nothing to answer, nothing changes. -/

namespace Sys2Proof.Machine

/-- The driver reads the response of its own line (R86, R87). -/
def afterLine : Host.Outcome State Fault Refusal → Host.Outcome State Fault Refusal
  | .next t => .next t.chain
  | .fault f => .fault f
  | .refused r => .refused r

/-- One step of the machine. -/
def step (s : State) : Host.Outcome State Fault Refusal :=
  match s.requests with
  | bs :: rest =>
    match decode bs with
    | .ok i => exec i (s.withRequests rest)
    | .error e => .refused (.notARequest e)
  | [] =>
    match s.program with
    | [] => .next s
    | l :: ls =>
      if s.len < s.cur then .fault .cursorBeyondBuffer
      else afterLine (exec (s.lineRequest l) (s.withProgram ls))

/-- The state with a table word offered as the next request (log 4, log 15): `step` then decodes and runs exactly it. -/
def State.withFetchWord (s : State) (nbits w : Nat) : State := s.offerFirst (tableImage nbits w)

end Sys2Proof.Machine
end

