-- ==== Sys2Proof/Safety.lean ====
section
/-! DEFINITION. The terms claims are stated in: what a request is answered with, what a sound response is, the invariant
of the machine, and the run of a host program as 44_sequencing.md R85 to R87 describe it. -/

namespace Sys2Proof.Machine

/-- The instruction completes in this state and the response ports then hold `r`. -/
def Answers (i : Instr) (s : State) (r : Response) : Prop := ∃ t, exec i s = .next t ∧ t.rsp = r

/-- The response with this `STATUS` and "every other field zero" (R23). -/
def Response.zeros (st : Status) : Response := ⟨st, .none, 0#32, 0#3, 0#32, 0#64⟩

/-- The conditions of R96's first row: the slice ends before the token does. -/
def TokenMissing (win : Word64) (rem : Word32) : Prop :=
  rem = 0#32 ∨ (rem = 1#32 ∧ contFlag (lane win 0)) ∨
    (rem = 2#32 ∧ contFlag (lane win 0) ∧ contFlag (lane win 1)) ∨
    (rem = 3#32 ∧ contFlag (lane win 0) ∧ contFlag (lane win 1) ∧ contFlag (lane win 2))

/-- A response as the unit gives it: a fault shows nothing but its code (R23), at most four header bytes (R13), at most
`0x10000003` bytes consumed (R13). -/
structure Response.Sound (r : Response) : Prop where
  fault_zeros : r.status ≠ .ok → r = .zeros r.status
  hb_le : r.hb.toNat ≤ 4
  nb_le : r.nb.toNat ≤ 0x10000003

/-- What holds of the machine at reset, after loading, and after every step. -/
structure State.Inv (s : State) : Prop where
  /-- Memory is in canonical form. -/
  mem_wf : s.mem.wf = true
  /-- No cell lies at or beyond `LEN`. -/
  mem_in : ∀ c ∈ s.mem, c.1 < s.len
  /-- `0 ≤ cur ≤ LEN` (R85). -/
  cur_le : s.cur ≤ s.len
  /-- The response ports hold a sound response. -/
  rsp_sound : s.rsp.Sound
  /-- So does every response of the run. -/
  log_sound : ∀ r ∈ s.responses, r.Sound
  /-- The cursor is the sum of what the run has consumed (R86, R87). -/
  cur_sum : s.cur = (s.responses.map fun r => r.nb.toNat).sum
  /-- Only the run's last response can be a fault (R87). -/
  fault_last : ∀ r ∈ s.responses.dropLast, r.status = .ok
  /-- After a fault the run is over (R87). -/
  fault_ends : (∃ r ∈ s.responses, r.status ≠ .ok) → s.program = []

/-- The request the driver makes at cursor `cur` of a buffer of these bytes (R85): `REM` is what is left, lane i carries
`BUF[cur + i]` where that exists and the line's own value elsewhere, `DENC` gets its operand. -/
def bufferRequest (bs : List Byte) (cur : Nat) (l : Line) : Instr :=
  .ofRequest l.op
    (if l.op = 6#3 then l.x else packLanes fun i => (bs[cur + i]?).getD (lane l.x i))
    (BitVec.ofNat 32 (min (bs.length - cur) 0xFFFFFFFF))

/-- A run of a program on a buffer from a cursor: its responses and the final cursor (R86, R87). -/
inductive DriverRun (bs : List Byte) : Nat → List Line → List Response → Nat → Prop
  /-- "The run ends after the last operation of the list". -/
  | done (cur : Nat) : DriverRun bs cur [] [] cur
  /-- An `OK` response advances the cursor by `NB`, and the next operation is run there. -/
  | next (cur : Nat) (l : Line) (ls : List Line) (r : Response) (rs : List Response) (fin : Nat) :
      Answers (bufferRequest bs cur l) .reset r → r.status = .ok → DriverRun bs (cur + r.nb.toNat) ls rs fin →
        DriverRun bs cur (l :: ls) (r :: rs) fin
  /-- "or at once after the first fault response", the cursor left as it is. -/
  | fault (cur : Nat) (l : Line) (ls : List Line) (r : Response) :
      Answers (bufferRequest bs cur l) .reset r → r.status ≠ .ok → DriverRun bs cur (l :: ls) [r] cur

end Sys2Proof.Machine
end

