-- ==== Sys2Proof/Certificates/Slice0/Obligations.lean ====
section
/-! DEFINITION. The statements for the provers. Every one is about `exec` or `step` or the decoder; the closed forms
`tokenLength` (30_encoding.md R52) and `tokenValue` (R53) stand for the token at `S[0]`, and no operation computes
with them. -/

open Sys2Proof Sys2Proof.Machine

/-! ## Encoding -/

/-- R46: the operation codes, every code with every window and length; code 7 is the reserved row.
The byte image of a request is the model's (log 1). -/
def Obligations.OperationCodesDecode : Prop :=
  ∀ (win : Word64) (rem : Word32),
    decode (requestImage 0#3 win rem) = .ok (.u29 win rem) ∧
    decode (requestImage 1#3 win rem) = .ok (.i29 win rem) ∧
    decode (requestImage 2#3 win rem) = .ok (.strh win rem) ∧
    decode (requestImage 3#3 win rem) = .ok (.strx win rem) ∧
    decode (requestImage 4#3 win rem) = .ok (.refh win rem) ∧
    decode (requestImage 5#3 win rem) = .ok (.ddec win rem) ∧
    decode (requestImage 6#3 win rem) = .ok (.denc win rem) ∧
    decode (requestImage 7#3 win rem) = .ok (.reserved7 win rem)

/-- The listing words of programs P1, P2 and P5 (95_test_vectors.md) decode to the requests the tables give. The words
and the requests are the spec's (R45); the 13 bytes each word is laid out in, least significant first, are the model's
choice (log 1). -/
def Obligations.ListingWordsDecode : Prop :=
  decode (bytesLE 13 0x00000007781FB7B63632B405B) = .ok (.strx 0xF03F6F6C6C65680B#64 14#32) ∧
  decode (bytesLE 13 0x00000004000000000000781FD) = .ok (.ddec 0x000000000000F03F#64 8#32) ∧
  decode (bytesLE 13 0x0000000500817FFFFFFF80408) = .ok (.u29 0x0102FFFFFFFF0081#64 10#32) ∧
  decode (bytesLE 13 0x0000000400C000817FFFFFFF9) = .ok (.i29 0x01800102FFFFFFFF#64 8#32) ∧
  decode (bytesLE 13 0x000000020000000000C000814) = .ok (.refh 0x0000000001800102#64 4#32) ∧
  decode (bytesLE 13 0x00000001800000000000C000A) = .ok (.strh 0x0000000000018001#64 3#32) ∧
  decode (bytesLE 13 0x000000005FF80000000000006) = .ok (.denc 0xBFF0000000000000#64 0#32)

/-- Decoding an encoded row gives it back, for every row and every operand. The byte images are the model's (log 1,
log 2). -/
def Obligations.DecodeOfEncode : Prop := ∀ i : Instr, decode (encode i) = .ok i

/-- No bytes but the encoding decode to a row: the encoding is the only image of each row (log 1, log 2). -/
def Obligations.EncodeOfDecode : Prop := ∀ (bs : List Byte) (i : Instr), decode bs = .ok i → encode i = bs

/-- R45: every request has one length and its word is `REM ‖ WIN ‖ OP`, `OP` in bits 2:0, `WIN` in bits 66:3, `REM` in
bits 98:67. The bytes the word is laid out in are the model's (log 1). -/
def Obligations.RequestWordFields : Prop :=
  ∀ (op : BitVec 3) (win : Word64) (rem : Word32),
    (encode (.ofRequest op win rem)).length = 13 ∧
    valueLE (encode (.ofRequest op win rem)) = rem.toNat * 2 ^ 67 + win.toNat * 2 ^ 3 + op.toNat

/-- R52: a token ends at its own last byte, whatever follows it. -/
def Obligations.TokenEndsItself : Prop :=
  ∀ (a b c : BitVec 7) (d : Byte) (rest : List Byte),
    decodeToken (encode (.varint1 a) ++ rest) = .ok (.varint1 a, rest) ∧
    decodeToken (encode (.varint2 a b) ++ rest) = .ok (.varint2 a b, rest) ∧
    decodeToken (encode (.varint3 a b c) ++ rest) = .ok (.varint3 a b c, rest) ∧
    decodeToken (encode (.varint4 a b c d) ++ rest) = .ok (.varint4 a b c d, rest)

/-- A word the decoder reads as an instruction, offered, is what the next step runs; nothing else changes (log 15). -/
def Obligations.TableWordRunsNext : Prop :=
  ∀ (s : State) (nbits w : Nat) (i : Instr),
    decodeTableWord nbits w = some i → step (s.withFetchWord nbits w) = exec i s

/-! ## The step -/

/-- A step answers the oldest offered request: it runs the decoded instruction, and the request is no longer offered. The
driver's fields are as `exec` leaves them (log 7). -/
def Obligations.StepRunsOfferedRequest : Prop :=
  ∀ (s : State) (bs : List Byte) (rest : List (List Byte)) (i : Instr),
    s.requests = bs :: rest → decode bs = .ok i → step s = exec i { s with requests := rest }

/-- R85: with no request offered, a step makes the request of the program's next line: `REM` is `min(LEN - cur,
0xFFFFFFFF)`, lane i of `WIN` is `BUF[cur + i]` where that exists, `DENC` gets its operand. It runs that instruction,
and the driver then reads the response. -/
def Obligations.StepRunsProgramLine : Prop :=
  ∀ (s : State) (l : Line) (ls : List Line),
    s.requests = [] → s.program = l :: ls → s.cur ≤ s.len →
    ∃ (win : Word64) (rem : Word32) (t : State),
      rem.toNat = min (s.len - s.cur) 0xFFFFFFFF ∧
      (l.op ≠ 6#3 → ∀ i < 8, s.cur + i < s.len → some (lane win i) = s.bufByte (s.cur + i)) ∧
      (l.op ≠ 6#3 → ∀ i < 8, s.len ≤ s.cur + i → lane win i = lane l.x i) ∧
      (l.op = 6#3 → win = l.x) ∧
      exec (.ofRequest l.op win rem) { s with program := ls } = .next t ∧
      step s = .next t.chain

/-- With no request and no program line, nothing changes (log 4); a driver whose cursor is beyond its buffer stops at
its next line, by name (log 9). -/
def Obligations.StepIdlesOrStopsByName : Prop :=
  (∀ s : State, s.requests = [] → s.program = [] → step s = .next s) ∧
  (∀ (s : State) (l : Line) (ls : List Line),
    s.requests = [] → s.program = l :: ls → s.len < s.cur → step s = .fault .cursorBeyondBuffer)

/-- R86: after a line's response with `STATUS = OK` the cursor has advanced by `NB` and is still within the buffer;
otherwise it is as it was. The response is the last of the run's. -/
def Obligations.CursorChains : Prop :=
  ∀ (s : State) (l : Line) (ls : List Line),
    s.requests = [] → s.program = l :: ls → s.cur ≤ s.len →
    ∃ t, step s = .next t ∧ t.cur ≤ t.len ∧ t.len = s.len ∧ t.responses = s.responses ++ [t.rsp] ∧
      (t.rsp.status = .ok → t.cur = s.cur + t.rsp.nb.toNat ∧ t.program = ls) ∧
      (t.rsp.status ≠ .ok → t.cur = s.cur)

/-- R87: "The run ends ... at once after the first fault response": the rest of the program is not run. -/
def Obligations.FaultEndsTheRun : Prop :=
  ∀ (s : State) (l : Line) (ls : List Line),
    s.requests = [] → s.program = l :: ls → s.cur ≤ s.len →
    ∃ t, step s = .next t ∧ (t.rsp.status ≠ .ok → t.program = [] ∧ step t = .next t)

/-- R87: running a loaded program gives the list of responses and the final cursor that R85, R86 and R87 describe,
whatever the buffer, the program and the state it is loaded into. -/
def Obligations.ProgramRunsAsDriverSays : Prop :=
  ∀ (s : State) (bs : List Byte) (ls : List Line),
    s.requests = [] →
    ∃ t, Host.Core.run Sys2Proof.core ls.length (s.load bs ls) = .next t ∧
      DriverRun bs 0 ls t.responses t.cur ∧ t.program = [] ∧ t.cur ≤ bs.length

/-! ## The operations -/

/-- R51: each of the four token forms gives the value whose bits the table draws, and the token's length. -/
def Obligations.TokenFormsGiveTheirBits : Prop :=
  ∀ (a b c : BitVec 7) (d : Byte) (sl : Slice) (s : State),
    (sl.startsWith [tokenByte false a] →
      exec (.u29 sl.win sl.rem) s = .next { s with op := 0#3, win := sl.win, rem := sl.rem, rsp :=
        ⟨.ok, .none, a.setWidth 32, 1#3, 1#32, 0#64⟩ }) ∧
    (sl.startsWith [tokenByte true a, tokenByte false b] →
      exec (.u29 sl.win sl.rem) s = .next { s with op := 0#3, win := sl.win, rem := sl.rem, rsp :=
        ⟨.ok, .none, (a ++ b).setWidth 32, 2#3, 2#32, 0#64⟩ }) ∧
    (sl.startsWith [tokenByte true a, tokenByte true b, tokenByte false c] →
      exec (.u29 sl.win sl.rem) s = .next { s with op := 0#3, win := sl.win, rem := sl.rem, rsp :=
        ⟨.ok, .none, (a ++ b ++ c).setWidth 32, 3#3, 3#32, 0#64⟩ }) ∧
    (sl.startsWith [tokenByte true a, tokenByte true b, tokenByte true c, d] →
      exec (.u29 sl.win sl.rem) s = .next { s with op := 0#3, win := sl.win, rem := sl.rem, rsp :=
        ⟨.ok, .none, (a ++ b ++ c ++ d).setWidth 32, 4#3, 4#32, 0#64⟩ })

/-- R66: U29 gives the token's value and its length, bits 31:29 zero; it raises when the slice ends in the token. Only
the ports change. -/
def Obligations.U29DecodesItsToken : Prop :=
  ∀ (win : Word64) (rem : Word32) (s : State),
    (tokenLength win ≤ rem.toNat →
      exec (.u29 win rem) s = .next { s with op := 0#3, win := win, rem := rem, rsp :=
        ⟨.ok, .none, tokenValue win, .ofNat 3 (tokenLength win), .ofNat 32 (tokenLength win), 0#64⟩ }) ∧
    (rem.toNat < tokenLength win →
      exec (.u29 win rem) s = .next { s with op := 0#3, win := win, rem := rem, rsp := .zeros .truncated }) ∧
    (tokenValue win).extractLsb' 29 3 = 0#3

/-- R67: I29 gives the token's value sign-extended from bit 28, and the same lengths and faults as U29. -/
def Obligations.I29SignExtends : Prop :=
  ∀ (win : Word64) (rem : Word32) (s : State),
    (tokenLength win ≤ rem.toNat →
      exec (.i29 win rem) s = .next { s with op := 1#3, win := win, rem := rem, rsp :=
        ⟨.ok, .none, ((tokenValue win).setWidth 29).signExtend 32, .ofNat 3 (tokenLength win),
          .ofNat 32 (tokenLength win), 0#64⟩ }) ∧
    (rem.toNat < tokenLength win →
      exec (.i29 win rem) s = .next { s with op := 1#3, win := win, rem := rem, rsp := .zeros .truncated })

/-- R75: STRH tells the sentinel, a reference and a literal apart; the header alone must be there. -/
def Obligations.StrhSplitsTheHeader : Prop :=
  ∀ (win : Word64) (rem : Word32) (s : State),
    (tokenLength win ≤ rem.toNat →
      exec (.strh win rem) s = .next { s with op := 2#3, win := win, rem := rem, rsp :=
        (if tokenValue win = 1#32 then
          ⟨.ok, .empty, 0#32, .ofNat 3 (tokenLength win), .ofNat 32 (tokenLength win), 0#64⟩
        else if (tokenValue win).getLsbD 0 = false then
          ⟨.ok, .reference, (tokenValue win >>> 1) ^^^ 0x10000000#32, .ofNat 3 (tokenLength win),
            .ofNat 32 (tokenLength win), 0#64⟩
        else
          ⟨.ok, .inline, tokenValue win >>> 1, .ofNat 3 (tokenLength win), .ofNat 32 (tokenLength win), 0#64⟩) }) ∧
    (rem.toNat < tokenLength win →
      exec (.strh win rem) s = .next { s with op := 2#3, win := win, rem := rem, rsp := .zeros .truncated })

/-- R76: STRX gives what STRH gives for the sentinel and a reference; a literal of length `L` counts `n + L` bytes when
they all exist and raises otherwise. -/
def Obligations.StrxBoundsTheBody : Prop :=
  ∀ (win : Word64) (rem : Word32) (s : State),
    (tokenLength win ≤ rem.toNat → tokenValue win = 1#32 →
      exec (.strx win rem) s = .next { s with op := 3#3, win := win, rem := rem, rsp :=
        ⟨.ok, .empty, 0#32, .ofNat 3 (tokenLength win), .ofNat 32 (tokenLength win), 0#64⟩ }) ∧
    (tokenLength win ≤ rem.toNat → (tokenValue win).getLsbD 0 = false →
      exec (.strx win rem) s = .next { s with op := 3#3, win := win, rem := rem, rsp :=
        ⟨.ok, .reference, (tokenValue win >>> 1) ^^^ 0x10000000#32, .ofNat 3 (tokenLength win),
          .ofNat 32 (tokenLength win), 0#64⟩ }) ∧
    (tokenValue win ≠ 1#32 → (tokenValue win).getLsbD 0 = true →
      tokenLength win + (tokenValue win >>> 1).toNat ≤ rem.toNat →
      exec (.strx win rem) s = .next { s with op := 3#3, win := win, rem := rem, rsp :=
        ⟨.ok, .inline, tokenValue win >>> 1, .ofNat 3 (tokenLength win),
          .ofNat 32 (tokenLength win + (tokenValue win >>> 1).toNat), 0#64⟩ }) ∧
    (tokenValue win ≠ 1#32 → (tokenValue win).getLsbD 0 = true →
      rem.toNat < tokenLength win + (tokenValue win >>> 1).toNat →
      exec (.strx win rem) s = .next { s with op := 3#3, win := win, rem := rem, rsp := .zeros .truncated }) ∧
    (rem.toNat < tokenLength win →
      exec (.strx win rem) s = .next { s with op := 3#3, win := win, rem := rem, rsp := .zeros .truncated })

/-- R80: REFH gives the payload XOR 0x10000000, by discriminator REFERENCE or INLINE, with no sentinel. Bit 28 of
`VALUE` for an inline header is the spec's own decision D9 (93_implementation_defined.md U14; log 14). -/
def Obligations.RefhGivesBiasedPayload : Prop :=
  ∀ (win : Word64) (rem : Word32) (s : State),
    (tokenLength win ≤ rem.toNat →
      exec (.refh win rem) s = .next { s with op := 4#3, win := win, rem := rem, rsp :=
        ⟨.ok, (if (tokenValue win).getLsbD 0 = true then .inline else .reference),
          (tokenValue win >>> 1) ^^^ 0x10000000#32, .ofNat 3 (tokenLength win), .ofNat 32 (tokenLength win), 0#64⟩ }) ∧
    (rem.toNat < tokenLength win →
      exec (.refh win rem) s = .next { s with op := 4#3, win := win, rem := rem, rsp := .zeros .truncated })

/-- R70: DDEC puts `S[i]` in bits `63-8i:56-8i` of `DOUT`, which is `byteswap64(WIN)`, and consumes 8 bytes; with fewer
it raises. -/
def Obligations.DdecReadsBigEndian : Prop :=
  ∀ (win : Word64) (rem : Word32) (s : State),
    (8 ≤ rem.toNat →
      exec (.ddec win rem) s = .next { s with op := 5#3, win := win, rem := rem, rsp :=
        ⟨.ok, .none, 0#32, 0#3, 8#32, byteswap64 win⟩ }) ∧
    (rem.toNat < 8 →
      exec (.ddec win rem) s = .next { s with op := 5#3, win := win, rem := rem, rsp := .zeros .truncated }) ∧
    (∀ i < 8, (byteswap64 win).extractLsb' (56 - 8 * i) 8 = lane win i)

/-- R71: DENC puts bits `63-8i:56-8i` of its operand in lane i of `DOUT`, which is `byteswap64(X)`; it never raises and
ignores `REM`. -/
def Obligations.DencWritesBigEndian : Prop :=
  ∀ (x : Word64) (rem : Word32) (s : State),
    exec (.denc x rem) s = .next { s with op := 6#3, win := x, rem := rem, rsp :=
      ⟨.ok, .none, 0#32, 0#3, 0#32, byteswap64 x⟩ } ∧
    (∀ i < 8, lane (byteswap64 x) i = x.extractLsb' (56 - 8 * i) 8)

/-- R97: the reserved code takes `IllegalOp`, whatever `WIN` and `REM` are: the fault response with
`STATUS = ILLEGAL_OP`. -/
def Obligations.ReservedCodeTakesIllegalOp : Prop :=
  ∀ (win : Word64) (rem : Word32) (s : State),
    exec (.reserved7 win rem) s = .next { s with op := 7#3, win := win, rem := rem, rsp := .zeros .illegalOp }

/-- R46 "no other operation exists": the six wire-format rows stop by name in every state (log 2). -/
def Obligations.WireFormatsAreNoOperations : Prop :=
  ∀ (a b c : BitVec 7) (d : Byte) (p : BitVec 28) (e : BitVec 1) (x : Word64) (s : State),
    exec (.varint1 a) s = .refused .wireFormatNotOperation ∧
    exec (.varint2 a b) s = .refused .wireFormatNotOperation ∧
    exec (.varint3 a b c) s = .refused .wireFormatNotOperation ∧
    exec (.varint4 a b c d) s = .refused .wireFormatNotOperation ∧
    exec (.header p e) s = .refused .wireFormatNotOperation ∧
    exec (.double x) s = .refused .wireFormatNotOperation

/-! ## Rules over all operations -/

/-- R14, R32: every request, with every window and length, in every state, is answered; only the ports change, and every
byte of the host's buffer reads as before. Nothing but a request completes. -/
def Obligations.EveryRequestIsAnswered : Prop :=
  (∀ (op : BitVec 3) (win : Word64) (rem : Word32) (s : State),
    ∃ r t, exec (.ofRequest op win rem) s = .next t ∧ t = { s with op := op, win := win, rem := rem, rsp := r } ∧
      ∀ a, t.bufByte a = s.bufByte a) ∧
  (∀ (i : Instr) (s t : State), exec i s = .next t → ∃ op win rem, i = .ofRequest op win rem)

/-- R14: equal requests get equal responses, whatever the state. -/
def Obligations.EqualRequestsEqualResponses : Prop :=
  ∀ (op : BitVec 3) (win : Word64) (rem : Word32) (s s' : State),
    ∃ r, Answers (.ofRequest op win rem) s r ∧ Answers (.ofRequest op win rem) s' r

/-- R15, R102: whatever requests were answered before, faults among them, the last request's response is the one the
machine gives it right after reset. That these steps answer the offered requests before any line of the driver's program,
and leave the driver's data untouched, is the model's choice of order (log 7; R107 leaves it to the platform); the byte
images the requests are offered in are the model's too (log 1). -/
def Obligations.HistoryLeavesNoTrace : Prop :=
  ∀ (s : State) (earlier : List Instr) (op : BitVec 3) (win : Word64) (rem : Word32),
    (∀ i ∈ earlier, i.isRequest = true) →
    s.requests = earlier.map encode ++ [encode (.ofRequest op win rem)] →
    ∃ t, Host.Core.run Sys2Proof.core (earlier.length + 1) s = .next t ∧ t.requests = [] ∧
      Answers (.ofRequest op win rem) .reset t.rsp ∧
      t.mem = s.mem ∧ t.len = s.len ∧ t.cur = s.cur ∧ t.program = s.program ∧ t.responses = s.responses

/-- R24: the response depends on no lane at or beyond `REM`, for every operation but DENC. -/
def Obligations.UnusedLanesDoNotMatter : Prop :=
  ∀ (op : BitVec 3) (win win' : Word64) (rem : Word32) (s s' : State),
    op ≠ 6#3 → (∀ i < min rem.toNat 8, lane win i = lane win' i) →
    ∃ r, Answers (.ofRequest op win rem) s r ∧ Answers (.ofRequest op win' rem) s' r

/-- R23: in a fault response every other field is zero. All-zero is the spec's own decision D7 (log 14). -/
def Obligations.FaultResponseIsZero : Prop :=
  ∀ (op : BitVec 3) (win : Word64) (rem : Word32) (s : State),
    ∃ r, Answers (.ofRequest op win rem) s r ∧ (r.status ≠ .ok → r = .zeros r.status)

/-- R96: `TruncatedInput` exactly when a needed byte does not exist, operation by operation. -/
def Obligations.TruncatedExactlyWhenShort : Prop :=
  ∀ (win : Word64) (rem : Word32) (s : State),
    (∀ i ∈ [Instr.u29 win rem, .i29 win rem, .strh win rem, .refh win rem],
      ∃ r, Answers i s r ∧ (r.status = .truncated ↔ TokenMissing win rem)) ∧
    (∃ r, Answers (.strx win rem) s r ∧ (r.status = .truncated ↔
      TokenMissing win rem ∨ ((tokenValue win).getLsbD 0 = true ∧ tokenValue win ≠ 1#32 ∧
        rem.toNat < tokenLength win + (tokenValue win >>> 1).toNat))) ∧
    (∃ r, Answers (.ddec win rem) s r ∧ (r.status = .truncated ↔ rem.toNat < 8)) ∧
    (∃ r, Answers (.denc win rem) s r ∧ r.status ≠ .truncated)

/-- R21: the codes of `STATUS`; ILLEGAL_OP is the answer to code 7 and to no other, and 3 is never produced. -/
def Obligations.StatusCodes : Prop :=
  Status.ok.code = 0#2 ∧ Status.truncated.code = 1#2 ∧ Status.illegalOp.code = 2#2 ∧
  ∀ (op : BitVec 3) (win : Word64) (rem : Word32) (s : State),
    ∃ r, Answers (.ofRequest op win rem) s r ∧ r.status.code ≠ 3#2 ∧ (r.status = .illegalOp ↔ op = 7#3)

/-- R22: the codes of `KIND` and which operation produces which. -/
def Obligations.KindsByOperation : Prop :=
  Kind.none.code = 0#2 ∧ Kind.reference.code = 1#2 ∧ Kind.inline.code = 2#2 ∧ Kind.empty.code = 3#2 ∧
  ∀ (op : BitVec 3) (win : Word64) (rem : Word32) (s : State),
    ∃ r, Answers (.ofRequest op win rem) s r ∧
      (r.status ≠ .ok → r.kind = .none) ∧
      (op = 0#3 ∨ op = 1#3 ∨ op = 5#3 ∨ op = 6#3 → r.kind = .none) ∧
      (op = 2#3 ∨ op = 3#3 → r.status = .ok → r.kind ≠ .none) ∧
      (op = 4#3 → r.status = .ok → r.kind = .reference ∨ r.kind = .inline)

/-- 95_test_vectors.md F4: what an operation reports as consumed lies within the slice. -/
def Obligations.ConsumedBytesLieInTheSlice : Prop :=
  ∀ (op : BitVec 3) (win : Word64) (rem : Word32) (s : State),
    ∃ r, Answers (.ofRequest op win rem) s r ∧
      (op ≠ 6#3 → r.hb.toNat ≤ r.nb.toNat ∧ r.nb.toNat ≤ rem.toNat) ∧
      (op = 6#3 → r.hb = 0#3 ∧ r.nb = 0#32)

/-- 95_test_vectors.md F5: a longer slice changes no `OK` response. -/
def Obligations.LongerSliceKeepsTheResponse : Prop :=
  ∀ (op : BitVec 3) (win : Word64) (rem rem' : Word32) (s s' : State) (r : Response),
    Answers (.ofRequest op win rem) s r → r.status = .ok → rem.toNat ≤ rem'.toNat →
    Answers (.ofRequest op win rem') s' r

/-- R27: no operation asks for more than `0x10000003` bytes, so two lengths at or above it get one response, and a legal
code is then answered `OK`. -/
def Obligations.SaturatedLengthLosesNothing : Prop :=
  ∀ (op : BitVec 3) (win : Word64) (rem rem' : Word32) (s s' : State),
    0x10000003 ≤ rem.toNat → 0x10000003 ≤ rem'.toNat →
    ∃ r, Answers (.ofRequest op win rem) s r ∧ Answers (.ofRequest op win rem') s' r ∧ (op ≠ 7#3 → r.status = .ok)

/-- R54: a token of n bytes gives a value within the n-byte band, overlong ones included. -/
def Obligations.ValueWithinItsBand : Prop :=
  ∀ (win : Word64) (rem : Word32) (s : State),
    ∃ r, Answers (.u29 win rem) s r ∧ (r.status = .ok →
      (r.hb = 1#3 ∧ r.value.toNat ≤ 0x7F) ∨ (r.hb = 2#3 ∧ r.value.toNat ≤ 0x3FFF) ∨
      (r.hb = 3#3 ∧ r.value.toNat ≤ 0x1FFFFF) ∨ (r.hb = 4#3 ∧ r.value.toNat ≤ 0x1FFFFFFF))

/-- R56 (a): a reference index, and every value of REFH, is `0x10000000 + (h >> 1)`, so its top four bits are 1. For an
inline header of REFH bit 28 is the spec's own decision D9 (log 14). -/
def Obligations.ReferenceIndexIsBiased : Prop :=
  ∀ (op : BitVec 3) (win : Word64) (rem : Word32) (s : State),
    ∃ r, Answers (.ofRequest op win rem) s r ∧
      (r.status = .ok → r.kind = .reference ∨ op = 4#3 →
        r.value.toNat = 0x10000000 + (tokenValue win).toNat / 2 ∧ r.value.extractLsb' 28 4 = 1#4)

/-- R56 (b): every token that spells 1 is the empty string, with its own length, and no other token is; REFH has no
sentinel. -/
def Obligations.SentinelIsTheValueOne : Prop :=
  (∀ (bs : List Byte) (sl : Slice) (s : State),
    bs ∈ [[0x01#8], [0x80#8, 0x01#8], [0x80#8, 0x80#8, 0x01#8], [0x80#8, 0x80#8, 0x80#8, 0x01#8]] →
    sl.startsWith bs →
    Answers (.strh sl.win sl.rem) s ⟨.ok, .empty, 0#32, .ofNat 3 bs.length, .ofNat 32 bs.length, 0#64⟩ ∧
    Answers (.strx sl.win sl.rem) s ⟨.ok, .empty, 0#32, .ofNat 3 bs.length, .ofNat 32 bs.length, 0#64⟩ ∧
    Answers (.refh sl.win sl.rem) s
      ⟨.ok, .inline, 0x10000000#32, .ofNat 3 bs.length, .ofNat 32 bs.length, 0#64⟩) ∧
  (∀ (win : Word64) (rem : Word32) (s : State),
    ∃ h x r, Answers (.strh win rem) s h ∧ Answers (.strx win rem) s x ∧ Answers (.refh win rem) s r ∧
      (h.kind = .empty ↔ tokenLength win ≤ rem.toNat ∧ tokenValue win = 1#32) ∧
      (x.kind = .empty ↔ h.kind = .empty) ∧ r.kind ≠ .empty)

/-- R77: where STRX and STRH agree, and the two respects in which they do not. -/
def Obligations.StrxAgreesWithStrh : Prop :=
  ∀ (win : Word64) (rem : Word32) (s : State),
    ∃ x h, Answers (.strx win rem) s x ∧ Answers (.strh win rem) s h ∧
      (x.status = .ok → h.status = .ok ∧ x.kind = h.kind ∧ x.value = h.value ∧ x.hb = h.hb) ∧
      (h.status = .truncated → x.status = .truncated) ∧
      (h.kind ≠ .inline → x = h) ∧
      (h.kind = .inline → rem.toNat < h.hb.toNat + h.value.toNat → x = .zeros .truncated) ∧
      (h.kind = .inline → h.hb.toNat + h.value.toNat ≤ rem.toNat →
        x = { h with nb := .ofNat 32 (h.hb.toNat + h.value.toNat) })

/-- R81: the two ways REFH differs from STRH, and that there is no other. -/
def Obligations.RefhDiffersFromStrhInTwoWays : Prop :=
  ∀ (win : Word64) (rem : Word32) (s : State),
    ∃ r h, Answers (.refh win rem) s r ∧ Answers (.strh win rem) s h ∧
      (h.kind = .none ∨ h.kind = .reference → r = h) ∧
      (h.kind = .empty → r = { h with kind := .inline, value := 0x10000000#32 }) ∧
      (h.kind = .inline → r = { h with value := h.value ^^^ 0x10000000#32 })

/-- R72: `byteswap64` is its own inverse, and DENC and DDEC undo each other, bit for bit. -/
def Obligations.DoubleRoundTrips : Prop :=
  (∀ v : Word64, byteswap64 (byteswap64 v) = v) ∧
  (∀ (x : Word64) (rem rem' : Word32) (s : State), 8 ≤ rem'.toNat →
    ∃ t u, exec (.denc x rem) s = .next t ∧ exec (.ddec t.rsp.dout rem') t = .next u ∧ u.rsp.dout = x) ∧
  (∀ (win : Word64) (rem rem' : Word32) (s : State), 8 ≤ rem.toNat →
    ∃ t u, exec (.ddec win rem) s = .next t ∧ exec (.denc t.rsp.dout rem') t = .next u ∧ u.rsp.dout = win)

/-- R59: the round trip of the reference encoder through I29 and through U29, and that its converse fails. -/
def Obligations.ReferenceEncoderRoundTrips : Prop :=
  (∀ (v : Word32) (sl : Slice) (s : State),
    -2 ^ 28 ≤ v.toInt → v.toInt ≤ 2 ^ 28 - 1 → sl.startsWith (encU29 v) →
    exec (.i29 sl.win sl.rem) s = .next { s with op := 1#3, win := sl.win, rem := sl.rem, rsp :=
      ⟨.ok, .none, v, .ofNat 3 (encU29 v).length, .ofNat 32 (encU29 v).length, 0#64⟩ }) ∧
  (∀ (m : Word32) (sl : Slice) (s : State),
    m.toNat ≤ 0x1FFFFFFF → sl.startsWith (encU29 m) →
    exec (.u29 sl.win sl.rem) s = .next { s with op := 0#3, win := sl.win, rem := sl.rem, rsp :=
      ⟨.ok, .none, m, .ofNat 3 (encU29 m).length, .ofNat 32 (encU29 m).length, 0#64⟩ }) ∧
  (∃ (bs : List Byte) (sl : Slice) (m : Word32),
    sl.startsWith bs ∧ Answers (.u29 sl.win sl.rem) .reset ⟨.ok, .none, m, .ofNat 3 bs.length, .ofNat 32 bs.length, 0#64⟩ ∧
    encU29 m ≠ bs)

/-- R58: the reference encoder sees its argument masked to 29 bits, picks its length by the four thresholds, and no token
of the same value is shorter. -/
def Obligations.ReferenceEncoderIsShortest : Prop :=
  (∀ v : Word32, encU29 v = encU29 (v &&& 0x1FFFFFFF#32)) ∧
  (∀ v : Word32, v.toNat ≤ 0x1FFFFFFF → (encU29 v).length =
    if v.toNat ≤ 0x7F then 1 else if v.toNat ≤ 0x3FFF then 2 else if v.toNat ≤ 0x1FFFFF then 3 else 4) ∧
  (∀ win : Word64, (encU29 (tokenValue win)).length ≤ tokenLength win)

/-! ## The host's buffer -/

/-- R85, R25: a loaded buffer holds exactly its bytes at offsets 0 to `LEN - 1`, in canonical form, and none beyond. -/
def Obligations.LoadedBufferReadsBack : Prop :=
  ∀ (s : State) (bs : List Byte) (ls : List Line) (a : Nat),
    (s.load bs ls).bufByte a = bs[a]? ∧ (s.load bs ls).mem.wf = true

/-- 95_test_vectors.md S5 with R42, R76, R86: a literal's header, its body and anything after it, decoded by STRX at the
cursor, give the body's length, its bytes and the bytes consumed. -/
def Obligations.StringLiteralRoundTrips : Prop :=
  ∀ (s : State) (body tail : List Byte) (fill : Word64) (ls : List Line),
    s.requests = [] → 1 ≤ body.length → body.length ≤ 0x0FFFFFFF →
    ∃ t, step (s.load (encU29 (.ofNat 32 (2 * body.length + 1)) ++ body ++ tail) (⟨3#3, fill⟩ :: ls)) = .next t ∧
      t.rsp.status = .ok ∧ t.rsp.kind = .inline ∧ t.rsp.value.toNat = body.length ∧
      t.rsp.hb.toNat = (encU29 (.ofNat 32 (2 * body.length + 1))).length ∧
      t.cur = t.rsp.hb.toNat + body.length ∧ t.literalBody 0 = body.map some

/-- 95_test_vectors.md P5: the driver encodes a double, stores the lanes of `DOUT` as its buffer, and decodes the same
double from it. -/
def Obligations.DriverDoubleRoundTrips : Prop :=
  ∀ (s : State) (x fill : Word64),
    s.requests = [] → s.program = [⟨6#3, x⟩] → s.cur ≤ s.len →
    ∃ t u, step s = .next t ∧ t.cur = s.cur ∧
      step { t.storeDout with program := [⟨5#3, fill⟩] } = .next u ∧ u.rsp.status = .ok ∧ u.rsp.dout = x ∧ u.cur = 8

/-! ## The invariant -/

/-- Every step keeps the invariant: memory canonical and inside the buffer, the cursor inside the buffer and equal to
what the run has consumed (R86), sound responses (R13, R23), a fault only at the end of a run (R87). -/
def Obligations.StepKeepsTheInvariant : Prop :=
  ∀ s t : State, s.Inv → step s = .next t → t.Inv

/-- The invariant holds at reset. The reset values of the ports and the empty buffer and program are the model's choice
(log 3, log 4). -/
def Obligations.ResetMeetsTheInvariant : Prop := State.reset.Inv

/-- Loading a buffer and a program establishes the invariant from any state whose response ports are sound. -/
def Obligations.LoadingMeetsTheInvariant : Prop :=
  ∀ (s : State) (bs : List Byte) (ls : List Line), s.rsp.Sound → (s.load bs ls).Inv

/-- From the invariant, with nothing but requests offered, a step never stops. -/
def Obligations.InvariantRulesOutStops : Prop :=
  ∀ s : State, s.Inv → (∀ bs ∈ s.requests, ∃ i, decode bs = .ok i ∧ i.isRequest = true) → ∃ t, step s = .next t

/-- R115 (b), (c): after reset no request is pending, and the first request presented is answered as from any other
state. -/
def Obligations.ResetNeedsNoWarmUp : Prop :=
  State.reset.requests = [] ∧
  ∀ (op : BitVec 3) (win : Word64) (rem : Word32) (s : State),
    ∃ t, step (State.reset.offerFirst (encode (.ofRequest op win rem))) = .next t ∧
      Answers (.ofRequest op win rem) s t.rsp
end

