-- ==== Sys2Proof/Laws/Decode.lean ====
section
/-! SUPPORT. The byte order helpers are inverse to each other, and the fields of the listing word (30_encoding.md R45) and
of a token byte (R51) are what was put there. -/

namespace Sys2Proof

@[simp] theorem length_bytesLE (k w : Nat) : (bytesLE k w).length = k := by
  induction k generalizing w with
  | zero => rfl
  | succ k ih => simp [bytesLE, ih]

theorem valueLE_bytesLE (k w : Nat) : valueLE (bytesLE k w) = w % 256 ^ k := by
  induction k generalizing w with
  | zero => simp [bytesLE, valueLE, Nat.mod_one]
  | succ k ih =>
    simp only [bytesLE, valueLE, ih, BitVec.toNat_ofNat]
    rw [show 256 ^ (k + 1) = 256 * 256 ^ k by rw [Nat.pow_succ, Nat.mul_comm], Nat.mod_mul]

theorem valueLE_lt (bs : List Byte) : valueLE bs < 256 ^ bs.length := by
  induction bs with
  | nil => simp [valueLE]
  | cons b bs ih =>
    have := b.isLt
    simp only [valueLE, List.length_cons, Nat.pow_succ]
    omega

theorem bytesLE_valueLE (bs : List Byte) : bytesLE bs.length (valueLE bs) = bs := by
  induction bs with
  | nil => rfl
  | cons b bs ih =>
    have hb := b.isLt
    have hd : (b.toNat + 256 * valueLE bs) / 256 = valueLE bs := by omega
    simp only [List.length_cons, bytesLE, valueLE, hd, ih]
    congr 1
    apply BitVec.eq_of_toNat_eq
    simp only [BitVec.toNat_ofNat]
    omega

@[simp] theorem length_bytesBE (k w : Nat) : (bytesBE k w).length = k := by simp [bytesBE]

theorem valueBE_bytesBE (k w : Nat) : valueBE (bytesBE k w) = w % 256 ^ k := by
  simp [valueBE, bytesBE, valueLE_bytesLE]

theorem bytesBE_valueBE (bs : List Byte) : bytesBE bs.length (valueBE bs) = bs := by
  have := bytesLE_valueLE bs.reverse
  rw [List.length_reverse] at this
  simp [bytesBE, valueBE, this]

theorem valueBE_lt (bs : List Byte) : valueBE bs < 256 ^ bs.length := by
  simpa [valueBE] using valueLE_lt bs.reverse

/-! ## The listing word -/

theorem append_toNat {m n : Nat} (x : BitVec m) (y : BitVec n) : (x ++ y).toNat = x.toNat * 2 ^ n + y.toNat := by
  rw [BitVec.toNat_append, Nat.shiftLeft_eq, Nat.mul_comm, Nat.two_pow_add_eq_or_of_lt y.isLt]

theorem reqWord_toNat (op : BitVec 3) (win : Word64) (rem : Word32) :
    (reqWord op win rem).toNat = rem.toNat * 2 ^ 67 + win.toNat * 2 ^ 3 + op.toNat := by
  unfold reqWord
  rw [append_toNat, append_toNat]
  omega

theorem decodeReqWord_reqWord (op : BitVec 3) (win : Word64) (rem : Word32) :
    decodeReqWord (reqWord op win rem) = .ofRequest op win rem := by
  have h := reqWord_toNat op win rem
  have ho := op.isLt
  have hw := win.isLt
  have hr := rem.isLt
  have e0 : (reqWord op win rem).extractLsb' 0 3 = op := by
    apply BitVec.eq_of_toNat_eq
    rw [BitVec.extractLsb'_toNat, h, Nat.shiftRight_eq_div_pow]
    omega
  have e1 : (reqWord op win rem).extractLsb' 3 64 = win := by
    apply BitVec.eq_of_toNat_eq
    rw [BitVec.extractLsb'_toNat, h, Nat.shiftRight_eq_div_pow]
    omega
  have e2 : (reqWord op win rem).extractLsb' 67 32 = rem := by
    apply BitVec.eq_of_toNat_eq
    rw [BitVec.extractLsb'_toNat, h, Nat.shiftRight_eq_div_pow]
    omega
  rw [decodeReqWord, e0, e1, e2]

/-- The listing word is its three fields and nothing else. -/
theorem reqWord_extract (w : BitVec 99) :
    reqWord (w.extractLsb' 0 3) (w.extractLsb' 3 64) (w.extractLsb' 67 32) = w := by
  apply BitVec.eq_of_toNat_eq
  have := w.isLt
  rw [reqWord_toNat]
  simp only [BitVec.extractLsb'_toNat, Nat.shiftRight_eq_div_pow]
  omega

/-! ## Token bytes -/

@[simp] theorem contFlag_tokenByte (f : Bool) (d : BitVec 7) : contFlag (tokenByte f d) = f := by
  simp only [contFlag, tokenByte, BitVec.getLsbD_append]
  simp

@[simp] theorem dataBits_tokenByte (f : Bool) (d : BitVec 7) : dataBits (tokenByte f d) = d := by
  apply BitVec.eq_of_getLsbD_eq
  intro j hj
  simp only [dataBits, tokenByte, BitVec.getLsbD_extractLsb', BitVec.getLsbD_append]
  simp [hj]

/-- A token byte is its flag and its data bits. -/
theorem tokenByte_eta (b : Byte) : tokenByte (contFlag b) (dataBits b) = b := by
  apply BitVec.eq_of_getLsbD_eq
  intro j hj
  simp only [dataBits, contFlag, tokenByte, BitVec.getLsbD_extractLsb', BitVec.getLsbD_append]
  by_cases h : j < 7
  · simp [h]
  · have : j = 7 := by omega
    subst this
    simp

end Sys2Proof
end

