-- ==== Sys2Proof/Laws/Operands.lean ====
section
/-! SUPPORT. What the operand functions do: lanes, `byteswap64`, and the varint read, whose loop (40_varint.md R65) equals
the closed forms of 30_encoding.md R52 and R53. -/

namespace Sys2Proof.Machine

/-! ## Lanes -/

theorem lane_getLsbD (v : Word64) (i j : Nat) (h : j < 8) : (lane v i).getLsbD j = v.getLsbD (8 * i + j) := by
  simp [lane, h]

theorem lane_packLanes (f : Nat → Byte) {i : Nat} (h : i < 8) : lane (packLanes f) i = f i := by
  apply BitVec.eq_of_getLsbD_eq
  intro j hj
  rw [lane_getLsbD _ _ _ hj]
  have : i = 0 ∨ i = 1 ∨ i = 2 ∨ i = 3 ∨ i = 4 ∨ i = 5 ∨ i = 6 ∨ i = 7 := by omega
  rcases this with rfl | rfl | rfl | rfl | rfl | rfl | rfl | rfl <;>
    (simp only [packLanes, BitVec.getLsbD_append]
     repeat first | rw [if_pos (by omega)] | rw [if_neg (by omega)]
     congr 1; omega)

/-- A port is its eight lanes. -/
theorem eq_of_lanes {v w : Word64} (h : ∀ i < 8, lane v i = lane w i) : v = w := by
  apply BitVec.eq_of_getLsbD_eq
  intro j hj
  have := congrArg (fun b : Byte => b.getLsbD (j % 8)) (h (j / 8) (by omega))
  simp only [lane_getLsbD _ _ _ (Nat.mod_lt j (by decide : 0 < 8))] at this
  rwa [Nat.div_add_mod] at this

theorem lane_byteswap64 (v : Word64) {i : Nat} (h : i < 8) : lane (byteswap64 v) i = lane v (7 - i) :=
  lane_packLanes _ h

theorem byteswap64_byteswap64 (v : Word64) : byteswap64 (byteswap64 v) = v :=
  eq_of_lanes fun i h => by
    rw [lane_byteswap64 _ h, lane_byteswap64 _ (by omega), show 7 - (7 - i) = i by omega]

theorem concatLanes_eq_byteswap64 (v : Word64) : concatLanes v = byteswap64 v := rfl

/-! ## The varint token -/

theorem Slice.byte_of_lt {sl : Slice} {i : Nat} (h : i < sl.rem.toNat) : sl.byte i = .ok (lane sl.win i) := by
  simp [Slice.byte, h]

theorem Slice.byte_of_ge {sl : Slice} {i : Nat} (h : sl.rem.toNat ≤ i) : sl.byte i = .error .truncatedInput := by
  simp [Slice.byte, Nat.not_lt.mpr h]

theorem tokenLength_pos (win : Word64) : 1 ≤ tokenLength win := by
  unfold tokenLength; split <;> (try split) <;> (try split) <;> omega

theorem tokenLength_le (win : Word64) : tokenLength win ≤ 4 := by
  unfold tokenLength; split <;> (try split) <;> (try split) <;> omega

/-- The loop of R65 is the closed forms of R52 and R53, and raises exactly when the slice ends before the token. -/
theorem readU29_eq (sl : Slice) :
    readU29 sl = if tokenLength sl.win ≤ sl.rem.toNat then .ok ((tokenValue sl.win).setWidth 29, tokenLength sl.win)
      else .error .truncatedInput := by
  obtain ⟨win, rem⟩ := sl
  generalize hr : rem.toNat = r
  rcases r with _ | _ | _ | _ | r <;>
    cases h0 : contFlag (lane win 0) <;> cases h1 : contFlag (lane win 1) <;> cases h2 : contFlag (lane win 2) <;>
    simp [readU29, foldGroups, foldFinal, Slice.byte, Config.u29MaxBytes, tokenLength, tokenValue, hr, h0, h1, h2,
      BitVec.shiftLeft_or_distrib, ← BitVec.shiftLeft_add]

/-! ## The value as concatenated data bits (R51) -/

theorem shift_or_two (a b : BitVec 7) :
    (a.setWidth 32 <<< 7 ||| b.setWidth 32 : Word32) = (a ++ b).setWidth 32 := by
  apply BitVec.eq_of_getLsbD_eq
  intro j hj
  simp only [BitVec.getLsbD_or, BitVec.getLsbD_shiftLeft, BitVec.getLsbD_setWidth, BitVec.getLsbD_append, hj]
  by_cases h : j < 7
  · simp [h]
  · simp [h, BitVec.getLsbD_of_ge b j (by omega), show j - 7 < 32 by omega]

theorem shift_or_three (a b c : BitVec 7) :
    (a.setWidth 32 <<< 14 ||| b.setWidth 32 <<< 7 ||| c.setWidth 32 : Word32) = (a ++ b ++ c).setWidth 32 := by
  apply BitVec.eq_of_getLsbD_eq
  intro j hj
  simp only [BitVec.getLsbD_or, BitVec.getLsbD_shiftLeft, BitVec.getLsbD_setWidth, BitVec.getLsbD_append, hj]
  by_cases h : j < 7
  · simp [h, show j < 14 by omega]
  · by_cases h' : j < 14
    · simp [h, h', BitVec.getLsbD_of_ge c j (by omega), show j - 7 < 32 by omega, show j - 7 < 7 by omega]
    · simp [h, h', BitVec.getLsbD_of_ge c j (by omega), BitVec.getLsbD_of_ge b (j - 7) (by omega),
        show j - 14 < 32 by omega, show ¬ j - 7 < 7 by omega, show j - 7 - 7 = j - 14 by omega]

theorem shift_or_four (a b c : BitVec 7) (d : Byte) :
    (a.setWidth 32 <<< 22 ||| b.setWidth 32 <<< 15 ||| c.setWidth 32 <<< 8 ||| d.setWidth 32 : Word32) =
      (a ++ b ++ c ++ d).setWidth 32 := by
  apply BitVec.eq_of_getLsbD_eq
  intro j hj
  simp only [BitVec.getLsbD_or, BitVec.getLsbD_shiftLeft, BitVec.getLsbD_setWidth, BitVec.getLsbD_append, hj]
  by_cases h : j < 8
  · simp [h, show j < 22 by omega, show j < 15 by omega]
  · by_cases h' : j < 15
    · simp [h, h', BitVec.getLsbD_of_ge d j (by omega), show j - 8 < 32 by omega, show j - 8 < 7 by omega,
        show j < 22 by omega]
    · by_cases h'' : j < 22
      · simp [h, h', h'', BitVec.getLsbD_of_ge d j (by omega), BitVec.getLsbD_of_ge c (j - 8) (by omega),
          show j - 15 < 32 by omega, show ¬ j - 8 < 7 by omega, show j - 8 - 7 = j - 15 by omega,
          show j - 15 < 7 by omega]
      · simp [h, h', h'', BitVec.getLsbD_of_ge d j (by omega), BitVec.getLsbD_of_ge c (j - 8) (by omega),
          BitVec.getLsbD_of_ge b (j - 15) (by omega), show j - 22 < 32 by omega, show ¬ j - 8 < 7 by omega,
          show j - 8 - 7 = j - 15 by omega, show ¬ j - 15 < 7 by omega, show j - 15 - 7 = j - 22 by omega]

/-- One case per token form: its length, the flags that settle it (R52), and its value as R51 draws it. -/
theorem token_cases (win : Word64) :
    (contFlag (lane win 0) = false ∧ tokenLength win = 1 ∧
      tokenValue win = (dataBits (lane win 0)).setWidth 32) ∨
    (contFlag (lane win 0) = true ∧ contFlag (lane win 1) = false ∧ tokenLength win = 2 ∧
      tokenValue win = (dataBits (lane win 0) ++ dataBits (lane win 1)).setWidth 32) ∨
    (contFlag (lane win 0) = true ∧ contFlag (lane win 1) = true ∧ contFlag (lane win 2) = false ∧
      tokenLength win = 3 ∧
      tokenValue win = (dataBits (lane win 0) ++ dataBits (lane win 1) ++ dataBits (lane win 2)).setWidth 32) ∨
    (contFlag (lane win 0) = true ∧ contFlag (lane win 1) = true ∧ contFlag (lane win 2) = true ∧
      tokenLength win = 4 ∧
      tokenValue win =
        (dataBits (lane win 0) ++ dataBits (lane win 1) ++ dataBits (lane win 2) ++ lane win 3).setWidth 32) := by
  cases h0 : contFlag (lane win 0) <;> cases h1 : contFlag (lane win 1) <;> cases h2 : contFlag (lane win 2) <;>
    simp only [tokenLength, tokenValue, h0, h1, h2, shift_or_two, shift_or_three, shift_or_four] <;> simp

theorem setWidth_toNat_lt {n : Nat} (x : BitVec n) : (x.setWidth 32).toNat < 2 ^ n :=
  Nat.lt_of_le_of_lt (by simpa using Nat.mod_le _ _) x.isLt

/-- The band of each token length (R54). -/
theorem tokenValue_band (win : Word64) :
    (tokenLength win = 1 ∧ (tokenValue win).toNat < 2 ^ 7) ∨ (tokenLength win = 2 ∧ (tokenValue win).toNat < 2 ^ 14) ∨
    (tokenLength win = 3 ∧ (tokenValue win).toNat < 2 ^ 21) ∨ (tokenLength win = 4 ∧ (tokenValue win).toNat < 2 ^ 29) := by
  rcases token_cases win with ⟨_, h, e⟩ | ⟨_, _, h, e⟩ | ⟨_, _, _, h, e⟩ | ⟨_, _, _, h, e⟩ <;>
    simp only [h, e, setWidth_toNat_lt] <;> simp

theorem tokenValue_lt (win : Word64) : (tokenValue win).toNat < 2 ^ 29 := by
  rcases tokenValue_band win with h | h | h | h <;> omega

/-- The 29-bit value of the read, as a 32-bit word again (R65). -/
@[simp] theorem tokenValue_setWidth (win : Word64) : ((tokenValue win).setWidth 29).setWidth 32 = tokenValue win := by
  apply BitVec.eq_of_toNat_eq
  have := tokenValue_lt win
  simp only [BitVec.toNat_setWidth]
  omega

@[simp] theorem payload_tokenValue (win : Word64) : payload ((tokenValue win).setWidth 29) = tokenValue win >>> 1 := by
  simp [payload]

theorem payload_toNat_lt (win : Word64) : (tokenValue win >>> 1).toNat < 2 ^ 28 := by
  have := tokenValue_lt win
  simp only [BitVec.toNat_ushiftRight, Nat.shiftRight_eq_div_pow]
  omega

@[simp] theorem discriminator_tokenValue (win : Word64) :
    discriminator ((tokenValue win).setWidth 29) = (tokenValue win).getLsbD 0 := by
  simp [discriminator]

theorem tokenValue_eq_one_iff (win : Word64) : (tokenValue win).setWidth 29 = 1#29 ↔ tokenValue win = 1#32 := by
  constructor
  · intro h
    have := congrArg (BitVec.setWidth 32) h
    simpa using this
  · intro h; simp [h]

/-- A byte the slice starts with is in its lane. -/
theorem Slice.startsWith_lane {sl : Slice} {bs : List Byte} (h : sl.startsWith bs) {i : Nat} {b : Byte}
    (hb : bs[i]? = some b) : lane sl.win i = b := by
  obtain ⟨hi, _⟩ := List.getElem?_eq_some_iff.mp hb
  have := h.2 i hi
  rw [hb] at this
  exact (Option.some.inj this).symm

/-- The read depends on the lanes of the token alone (R28): windows that agree below its length have one token. -/
theorem token_congr {win win' : Word64} (h : ∀ i < tokenLength win, lane win i = lane win' i) :
    tokenLength win' = tokenLength win ∧ tokenValue win' = tokenValue win := by
  rcases token_cases win with ⟨f0, hn, e⟩ | ⟨f0, f1, hn, e⟩ | ⟨f0, f1, f2, hn, e⟩ | ⟨f0, f1, f2, hn, e⟩ <;>
    rw [hn] at h
  · have l0 := h 0 (by omega)
    simp_all [tokenLength, tokenValue]
  · have l0 := h 0 (by omega)
    have l1 := h 1 (by omega)
    rw [hn, e, ← shift_or_two]
    simp_all [tokenLength, tokenValue]
  · have l0 := h 0 (by omega)
    have l1 := h 1 (by omega)
    have l2 := h 2 (by omega)
    rw [hn, e, ← shift_or_three]
    simp_all [tokenLength, tokenValue]
  · have l0 := h 0 (by omega)
    have l1 := h 1 (by omega)
    have l2 := h 2 (by omega)
    have l3 := h 3 (by omega)
    rw [hn, e, ← shift_or_four]
    simp_all [tokenLength, tokenValue]

/-- Whether the slice ends before the token depends on the lanes below `REM` alone (R24). -/
theorem tokenLength_le_congr {win win' : Word64} {r : Nat} (h : ∀ i < min r 8, lane win i = lane win' i) :
    tokenLength win ≤ r ↔ tokenLength win' ≤ r := by
  have key : ∀ {v v' : Word64}, (∀ i < min r 8, lane v i = lane v' i) → tokenLength v ≤ r → tokenLength v' ≤ r := by
    intro v v' hv hl
    have h4 := tokenLength_le v
    rw [(token_congr (win := v) (win' := v') fun i hi => hv i (by omega)).1]
    exact hl
  exact ⟨key h, key fun i hi => (h i hi).symm⟩

/-! ## Sign extension and the biased index -/

/-- Subtracting 0x20000000 when bit 28 is set is sign extension (R67, R68). -/
theorem signed29_eq_signExtend (h : BitVec 29) : signed29 h = h.signExtend 32 := by
  apply BitVec.eq_of_toNat_eq
  have hlt := h.isLt
  have hm : h.getLsbD 28 = h.msb := by simp [BitVec.msb_eq_getLsbD_last]
  rw [signed29, hm, BitVec.toNat_signExtend]
  have hw : (h.setWidth 32).toNat = h.toNat := by simp only [BitVec.toNat_setWidth]; omega
  cases hb : h.msb
  · simp [hw]
  · have hge : 2 ^ 28 ≤ h.toNat := by simpa [BitVec.msb_eq_decide] using hb
    simp only [if_true, BitVec.toNat_sub, hw, Config.u29Modulus, BitVec.toNat_ofNat]
    omega

/-- On a 28-bit payload the XOR sets bit 28 (R56 (a), R68). -/
theorem xor_refBias {x : Word32} (h : x.toNat < 2 ^ 28) : x ^^^ 0x10000000#32 = 0x10000000#32 + x := by
  have hand : 0x10000000#32 &&& x = 0#32 := by
    apply BitVec.eq_of_getLsbD_eq
    intro j hj
    by_cases hj28 : j = 28
    · subst hj28
      have : x.getLsbD 28 = false := Nat.testBit_lt_two_pow h
      rw [BitVec.getLsbD_and, this, Bool.and_false, BitVec.getLsbD_zero]
    · have : (0x10000000#32).getLsbD j = false := by
        have : (0x10000000#32) = BitVec.twoPow 32 28 := by decide
        rw [this, BitVec.getLsbD_twoPow]
        simp [Ne.symm hj28]
      simp [this]
  rw [BitVec.add_eq_or_of_and_eq_zero _ _ hand]
  apply BitVec.eq_of_getLsbD_eq
  intro j hj
  have := congrArg (fun v : Word32 => v.getLsbD j) hand
  simp only [BitVec.getLsbD_and, BitVec.getLsbD_zero] at this
  simp only [BitVec.getLsbD_xor, BitVec.getLsbD_or]
  cases hx : x.getLsbD j <;> cases hc : (0x10000000#32).getLsbD j <;> simp_all

theorem biasedIndex_toNat (win : Word64) :
    (tokenValue win >>> 1 ^^^ 0x10000000#32).toNat = 0x10000000 + (tokenValue win).toNat / 2 := by
  have h := payload_toNat_lt win
  rw [xor_refBias h, BitVec.toNat_add]
  simp only [BitVec.toNat_ushiftRight, Nat.shiftRight_eq_div_pow, BitVec.toNat_ofNat] at h ⊢
  omega

end Sys2Proof.Machine
end

