-- ==== Sys2Proof/Laws/State.lean ====
section
/-! SUPPORT. One lemma per field per update of the state, so that no proof unfolds a record update. -/

namespace Sys2Proof.Machine

/-! ## `State.present` -/

@[simp] theorem State.present_op (s : State) (op : BitVec 3) (win : Word64) (rem : Word32) : (s.present op win rem).op = op := rfl

@[simp] theorem State.present_win (s : State) (op : BitVec 3) (win : Word64) (rem : Word32) : (s.present op win rem).win = win := rfl

@[simp] theorem State.present_rem (s : State) (op : BitVec 3) (win : Word64) (rem : Word32) : (s.present op win rem).rem = rem := rfl

@[simp] theorem State.present_rsp (s : State) (op : BitVec 3) (win : Word64) (rem : Word32) : (s.present op win rem).rsp = s.rsp := rfl

@[simp] theorem State.present_requests (s : State) (op : BitVec 3) (win : Word64) (rem : Word32) : (s.present op win rem).requests = s.requests := rfl

@[simp] theorem State.present_mem (s : State) (op : BitVec 3) (win : Word64) (rem : Word32) : (s.present op win rem).mem = s.mem := rfl

@[simp] theorem State.present_len (s : State) (op : BitVec 3) (win : Word64) (rem : Word32) : (s.present op win rem).len = s.len := rfl

@[simp] theorem State.present_cur (s : State) (op : BitVec 3) (win : Word64) (rem : Word32) : (s.present op win rem).cur = s.cur := rfl

@[simp] theorem State.present_program (s : State) (op : BitVec 3) (win : Word64) (rem : Word32) : (s.present op win rem).program = s.program := rfl

@[simp] theorem State.present_responses (s : State) (op : BitVec 3) (win : Word64) (rem : Word32) : (s.present op win rem).responses = s.responses := rfl

/-! ## `State.respond` -/

@[simp] theorem State.respond_op (s : State) (r : Response) : (s.respond r).op = s.op := rfl

@[simp] theorem State.respond_win (s : State) (r : Response) : (s.respond r).win = s.win := rfl

@[simp] theorem State.respond_rem (s : State) (r : Response) : (s.respond r).rem = s.rem := rfl

@[simp] theorem State.respond_rsp (s : State) (r : Response) : (s.respond r).rsp = r := rfl

@[simp] theorem State.respond_requests (s : State) (r : Response) : (s.respond r).requests = s.requests := rfl

@[simp] theorem State.respond_mem (s : State) (r : Response) : (s.respond r).mem = s.mem := rfl

@[simp] theorem State.respond_len (s : State) (r : Response) : (s.respond r).len = s.len := rfl

@[simp] theorem State.respond_cur (s : State) (r : Response) : (s.respond r).cur = s.cur := rfl

@[simp] theorem State.respond_program (s : State) (r : Response) : (s.respond r).program = s.program := rfl

@[simp] theorem State.respond_responses (s : State) (r : Response) : (s.respond r).responses = s.responses := rfl

/-! ## `State.withProgram` -/

@[simp] theorem State.withProgram_op (s : State) (ls : List Line) : (s.withProgram ls).op = s.op := rfl

@[simp] theorem State.withProgram_win (s : State) (ls : List Line) : (s.withProgram ls).win = s.win := rfl

@[simp] theorem State.withProgram_rem (s : State) (ls : List Line) : (s.withProgram ls).rem = s.rem := rfl

@[simp] theorem State.withProgram_rsp (s : State) (ls : List Line) : (s.withProgram ls).rsp = s.rsp := rfl

@[simp] theorem State.withProgram_requests (s : State) (ls : List Line) : (s.withProgram ls).requests = s.requests := rfl

@[simp] theorem State.withProgram_mem (s : State) (ls : List Line) : (s.withProgram ls).mem = s.mem := rfl

@[simp] theorem State.withProgram_len (s : State) (ls : List Line) : (s.withProgram ls).len = s.len := rfl

@[simp] theorem State.withProgram_cur (s : State) (ls : List Line) : (s.withProgram ls).cur = s.cur := rfl

@[simp] theorem State.withProgram_program (s : State) (ls : List Line) : (s.withProgram ls).program = ls := rfl

@[simp] theorem State.withProgram_responses (s : State) (ls : List Line) : (s.withProgram ls).responses = s.responses := rfl

/-! ## `State.withRequests` -/

@[simp] theorem State.withRequests_op (s : State) (rs : List (List Byte)) : (s.withRequests rs).op = s.op := rfl

@[simp] theorem State.withRequests_win (s : State) (rs : List (List Byte)) : (s.withRequests rs).win = s.win := rfl

@[simp] theorem State.withRequests_rem (s : State) (rs : List (List Byte)) : (s.withRequests rs).rem = s.rem := rfl

@[simp] theorem State.withRequests_rsp (s : State) (rs : List (List Byte)) : (s.withRequests rs).rsp = s.rsp := rfl

@[simp] theorem State.withRequests_requests (s : State) (rs : List (List Byte)) : (s.withRequests rs).requests = rs := rfl

@[simp] theorem State.withRequests_mem (s : State) (rs : List (List Byte)) : (s.withRequests rs).mem = s.mem := rfl

@[simp] theorem State.withRequests_len (s : State) (rs : List (List Byte)) : (s.withRequests rs).len = s.len := rfl

@[simp] theorem State.withRequests_cur (s : State) (rs : List (List Byte)) : (s.withRequests rs).cur = s.cur := rfl

@[simp] theorem State.withRequests_program (s : State) (rs : List (List Byte)) : (s.withRequests rs).program = s.program := rfl

@[simp] theorem State.withRequests_responses (s : State) (rs : List (List Byte)) : (s.withRequests rs).responses = s.responses := rfl

/-! ## `State.offerFirst` -/

@[simp] theorem State.offerFirst_op (s : State) (bs : List Byte) : (s.offerFirst bs).op = s.op := rfl

@[simp] theorem State.offerFirst_win (s : State) (bs : List Byte) : (s.offerFirst bs).win = s.win := rfl

@[simp] theorem State.offerFirst_rem (s : State) (bs : List Byte) : (s.offerFirst bs).rem = s.rem := rfl

@[simp] theorem State.offerFirst_rsp (s : State) (bs : List Byte) : (s.offerFirst bs).rsp = s.rsp := rfl

@[simp] theorem State.offerFirst_requests (s : State) (bs : List Byte) : (s.offerFirst bs).requests = bs :: s.requests := rfl

@[simp] theorem State.offerFirst_mem (s : State) (bs : List Byte) : (s.offerFirst bs).mem = s.mem := rfl

@[simp] theorem State.offerFirst_len (s : State) (bs : List Byte) : (s.offerFirst bs).len = s.len := rfl

@[simp] theorem State.offerFirst_cur (s : State) (bs : List Byte) : (s.offerFirst bs).cur = s.cur := rfl

@[simp] theorem State.offerFirst_program (s : State) (bs : List Byte) : (s.offerFirst bs).program = s.program := rfl

@[simp] theorem State.offerFirst_responses (s : State) (bs : List Byte) : (s.offerFirst bs).responses = s.responses := rfl

/-! ## `State.setBuffer` -/

@[simp] theorem State.setBuffer_op (s : State) (bs : List Byte) : (s.setBuffer bs).op = s.op := rfl

@[simp] theorem State.setBuffer_win (s : State) (bs : List Byte) : (s.setBuffer bs).win = s.win := rfl

@[simp] theorem State.setBuffer_rem (s : State) (bs : List Byte) : (s.setBuffer bs).rem = s.rem := rfl

@[simp] theorem State.setBuffer_rsp (s : State) (bs : List Byte) : (s.setBuffer bs).rsp = s.rsp := rfl

@[simp] theorem State.setBuffer_requests (s : State) (bs : List Byte) : (s.setBuffer bs).requests = s.requests := rfl

@[simp] theorem State.setBuffer_mem (s : State) (bs : List Byte) : (s.setBuffer bs).mem = Memory.writeBytes [] 0 bs := rfl

@[simp] theorem State.setBuffer_len (s : State) (bs : List Byte) : (s.setBuffer bs).len = bs.length := rfl

@[simp] theorem State.setBuffer_cur (s : State) (bs : List Byte) : (s.setBuffer bs).cur = 0 := rfl

@[simp] theorem State.setBuffer_program (s : State) (bs : List Byte) : (s.setBuffer bs).program = s.program := rfl

@[simp] theorem State.setBuffer_responses (s : State) (bs : List Byte) : (s.setBuffer bs).responses = s.responses := rfl

/-! ## `State.load` -/

@[simp] theorem State.load_op (s : State) (bs : List Byte) (ls : List Line) : (s.load bs ls).op = s.op := rfl

@[simp] theorem State.load_win (s : State) (bs : List Byte) (ls : List Line) : (s.load bs ls).win = s.win := rfl

@[simp] theorem State.load_rem (s : State) (bs : List Byte) (ls : List Line) : (s.load bs ls).rem = s.rem := rfl

@[simp] theorem State.load_rsp (s : State) (bs : List Byte) (ls : List Line) : (s.load bs ls).rsp = s.rsp := rfl

@[simp] theorem State.load_requests (s : State) (bs : List Byte) (ls : List Line) : (s.load bs ls).requests = s.requests := rfl

@[simp] theorem State.load_mem (s : State) (bs : List Byte) (ls : List Line) : (s.load bs ls).mem = Memory.writeBytes [] 0 bs := rfl

@[simp] theorem State.load_len (s : State) (bs : List Byte) (ls : List Line) : (s.load bs ls).len = bs.length := rfl

@[simp] theorem State.load_cur (s : State) (bs : List Byte) (ls : List Line) : (s.load bs ls).cur = 0 := rfl

@[simp] theorem State.load_program (s : State) (bs : List Byte) (ls : List Line) : (s.load bs ls).program = ls := rfl

@[simp] theorem State.load_responses (s : State) (bs : List Byte) (ls : List Line) : (s.load bs ls).responses = [] := rfl

/-! ## `State.chain` -/

@[simp] theorem State.chain_op (s : State) : s.chain.op = s.op := by unfold State.chain; split <;> rfl

@[simp] theorem State.chain_win (s : State) : s.chain.win = s.win := by unfold State.chain; split <;> rfl

@[simp] theorem State.chain_rem (s : State) : s.chain.rem = s.rem := by unfold State.chain; split <;> rfl

@[simp] theorem State.chain_rsp (s : State) : s.chain.rsp = s.rsp := by unfold State.chain; split <;> rfl

@[simp] theorem State.chain_requests (s : State) : s.chain.requests = s.requests := by unfold State.chain; split <;> rfl

@[simp] theorem State.chain_mem (s : State) : s.chain.mem = s.mem := by unfold State.chain; split <;> rfl

@[simp] theorem State.chain_len (s : State) : s.chain.len = s.len := by unfold State.chain; split <;> rfl

theorem State.chain_cur_ok (s : State) (h : s.rsp.status = .ok) : s.chain.cur = s.cur + s.rsp.nb.toNat := by
  simp [State.chain, h]

theorem State.chain_cur_fault (s : State) (h : s.rsp.status ≠ .ok) : s.chain.cur = s.cur := by simp [State.chain, h]

theorem State.chain_program_ok (s : State) (h : s.rsp.status = .ok) : s.chain.program = s.program := by
  simp [State.chain, h]

theorem State.chain_program_fault (s : State) (h : s.rsp.status ≠ .ok) : s.chain.program = [] := by
  simp [State.chain, h]

@[simp] theorem State.chain_responses (s : State) : s.chain.responses = s.responses ++ [s.rsp] := by
  unfold State.chain; split <;> rfl

/-! ## Reading the buffer -/

/-- The buffer read depends on the buffer alone. -/
theorem State.bufByte_congr {s t : State} (hm : t.mem = s.mem) (hl : t.len = s.len) (a : Nat) :
    t.bufByte a = s.bufByte a := by
  simp [State.bufByte, hm, hl]

end Sys2Proof.Machine
end

