-- ==== Sys2Proof/Laws/Exec.lean ====
section
/-! SUPPORT. What `exec` can do, said once: a request is answered with a response that is a function of the request, and
only the ports change; a wire format is refused. The response of each operation is given by the closed forms of the
token. -/

namespace Sys2Proof.Machine

/-- The response an operation ends with: its own, or the fault response of what it raised. -/
def responseOf : Except Trap Response → Response
  | .ok r => r
  | .error t => .fault t

@[simp] theorem responseOf_ok (r : Response) : responseOf (.ok r) = r := rfl

@[simp] theorem responseOf_truncated : responseOf (.error .truncatedInput) = .zeros .truncated := rfl

@[simp] theorem responseOf_illegalOp : responseOf (.error .illegalOp) = .zeros .illegalOp := rfl

theorem State.serve_eq (s : State) (op : BitVec 3) (win : Word64) (rem : Word32) (r : Except Trap Response) :
    s.serve op win rem r = { s with op := op, win := win, rem := rem, rsp := responseOf r } := by
  cases r <;> rfl

/-- The result of each code, as one function of the request (R46). -/
def requestResult (op : BitVec 3) (win : Word64) (rem : Word32) : Except Trap Response :=
  match op.toNat with
  | 0 => u29Result ⟨win, rem⟩
  | 1 => i29Result ⟨win, rem⟩
  | 2 => strhResult ⟨win, rem⟩
  | 3 => strxResult ⟨win, rem⟩
  | 4 => refhResult ⟨win, rem⟩
  | 5 => ddecResult ⟨win, rem⟩
  | 6 => dencResult win
  | _ => .error .illegalOp

@[simp] theorem requestResult_u29 (win : Word64) (rem : Word32) : requestResult 0#3 win rem = u29Result ⟨win, rem⟩ := rfl
@[simp] theorem requestResult_i29 (win : Word64) (rem : Word32) : requestResult 1#3 win rem = i29Result ⟨win, rem⟩ := rfl
@[simp] theorem requestResult_strh (win : Word64) (rem : Word32) : requestResult 2#3 win rem = strhResult ⟨win, rem⟩ := rfl
@[simp] theorem requestResult_strx (win : Word64) (rem : Word32) : requestResult 3#3 win rem = strxResult ⟨win, rem⟩ := rfl
@[simp] theorem requestResult_refh (win : Word64) (rem : Word32) : requestResult 4#3 win rem = refhResult ⟨win, rem⟩ := rfl
@[simp] theorem requestResult_ddec (win : Word64) (rem : Word32) : requestResult 5#3 win rem = ddecResult ⟨win, rem⟩ := rfl
@[simp] theorem requestResult_denc (win : Word64) (rem : Word32) : requestResult 6#3 win rem = dencResult win := rfl
@[simp] theorem requestResult_reserved7 (win : Word64) (rem : Word32) : requestResult 7#3 win rem = .error .illegalOp := rfl

/-- The eight codes, one by one. -/
theorem code_cases (op : BitVec 3) :
    op = 0#3 ∨ op = 1#3 ∨ op = 2#3 ∨ op = 3#3 ∨ op = 4#3 ∨ op = 5#3 ∨ op = 6#3 ∨ op = 7#3 := by
  revert op; decide

/-- A request is served with the result of its code; nothing else happens. -/
theorem exec_ofRequest (op : BitVec 3) (win : Word64) (rem : Word32) (s : State) :
    exec (.ofRequest op win rem) s = .next (s.serve op win rem (requestResult op win rem)) := by
  rcases code_cases op with rfl | rfl | rfl | rfl | rfl | rfl | rfl | rfl <;> rfl

theorem exec_request_next (op : BitVec 3) (win : Word64) (rem : Word32) (s : State) :
    exec (.ofRequest op win rem) s =
      .next { s with op := op, win := win, rem := rem, rsp := responseOf (requestResult op win rem) } := by
  rw [exec_ofRequest, State.serve_eq]

/-- A request's answer, and that it has no other. -/
theorem answers_ofRequest_iff (op : BitVec 3) (win : Word64) (rem : Word32) (s : State) (r : Response) :
    Answers (.ofRequest op win rem) s r ↔ r = responseOf (requestResult op win rem) := by
  constructor
  · rintro ⟨t, ht, rfl⟩
    rw [exec_request_next] at ht
    cases ht; rfl
  · rintro rfl
    exact ⟨_, exec_request_next op win rem s, rfl⟩

/-- The rows that complete are the requests. -/
theorem isRequest_iff (i : Instr) : i.isRequest = true ↔ ∃ op win rem, i = .ofRequest op win rem := by
  constructor
  · intro h
    cases i with
    | u29 w r => exact ⟨0#3, w, r, rfl⟩
    | i29 w r => exact ⟨1#3, w, r, rfl⟩
    | strh w r => exact ⟨2#3, w, r, rfl⟩
    | strx w r => exact ⟨3#3, w, r, rfl⟩
    | refh w r => exact ⟨4#3, w, r, rfl⟩
    | ddec w r => exact ⟨5#3, w, r, rfl⟩
    | denc w r => exact ⟨6#3, w, r, rfl⟩
    | reserved7 w r => exact ⟨7#3, w, r, rfl⟩
    | varint1 a => cases h
    | varint2 a b => cases h
    | varint3 a b c => cases h
    | varint4 a b c d => cases h
    | header p d => cases h
    | double p => cases h
  · rintro ⟨op, win, rem, rfl⟩
    rcases code_cases op with rfl | rfl | rfl | rfl | rfl | rfl | rfl | rfl <;> rfl

/-- Every row either is a request or is refused as a wire format. -/
theorem exec_of_not_request {i : Instr} (h : i.isRequest = false) (s : State) :
    exec i s = .refused .wireFormatNotOperation := by
  cases i <;> first | rfl | cases h

/-! ## The result of each operation in closed form -/

/-- An operation that starts with the varint read: its continuation runs on the token, or the fault response is given
(R65). -/
theorem withToken_eq (sl : Slice) (k : BitVec 29 → Nat → Except Trap Response) :
    withToken sl k = if tokenLength sl.win ≤ sl.rem.toNat then
      k ((tokenValue sl.win).setWidth 29) (tokenLength sl.win) else .error .truncatedInput := by
  rw [withToken, readU29_eq]
  by_cases h : tokenLength sl.win ≤ sl.rem.toNat <;> simp [h]

/-- The token's length fits the `HB` port. -/
@[simp] theorem tokenLength_mod_hb (win : Word64) : tokenLength win % 8 = tokenLength win := by
  have := tokenLength_le win
  omega

/-- The token's length fits the `NB` port. -/
@[simp] theorem tokenLength_mod_nb (win : Word64) : tokenLength win % 4294967296 = tokenLength win := by
  have := tokenLength_le win
  omega

/-- The token's length on the `HB` and `NB` ports, as numbers. -/
theorem hb_tokenLength (win : Word64) : (BitVec.ofNat 3 (tokenLength win)).toNat = tokenLength win := by
  have := tokenLength_le win
  simp only [BitVec.toNat_ofNat]; omega

theorem nb_tokenLength (win : Word64) : (BitVec.ofNat 32 (tokenLength win)).toNat = tokenLength win := by
  have := tokenLength_le win
  simp only [BitVec.toNat_ofNat]; omega

/-- `n + L` cannot wrap (R68). -/
theorem header_add_body (win : Word64) :
    BitVec.ofNat 32 (tokenLength win) + tokenValue win >>> 1 =
      BitVec.ofNat 32 (tokenLength win + (tokenValue win >>> 1).toNat) := by
  apply BitVec.eq_of_toNat_eq
  simp only [BitVec.toNat_add, BitVec.toNat_ofNat, Nat.mod_add_mod]

theorem header_add_body_toNat (win : Word64) :
    (BitVec.ofNat 32 (tokenLength win) + tokenValue win >>> 1).toNat =
      tokenLength win + (tokenValue win >>> 1).toNat := by
  have h1 := tokenLength_le win
  have h2 := payload_toNat_lt win
  rw [BitVec.toNat_add, nb_tokenLength]
  omega

theorem stringKind_tokenValue (win : Word64) : stringKind ((tokenValue win).setWidth 29) =
    if tokenValue win = 1#32 then .empty else if (tokenValue win).getLsbD 0 then .inline else .reference := by
  simp only [stringKind, tokenValue_eq_one_iff, discriminator_tokenValue]

theorem referenceKind_tokenValue (win : Word64) : referenceKind ((tokenValue win).setWidth 29) =
    if (tokenValue win).getLsbD 0 then .inline else .reference := by
  simp only [referenceKind, discriminator_tokenValue]

theorem refIndex_tokenValue (win : Word64) :
    refIndex ((tokenValue win).setWidth 29) = tokenValue win >>> 1 ^^^ 0x10000000#32 := by
  simp only [refIndex, payload_tokenValue, Config.refBias]

/-- U29 (R66). -/
theorem u29_response (win : Word64) (rem : Word32) : responseOf (u29Result ⟨win, rem⟩) =
    if tokenLength win ≤ rem.toNat then
      ⟨.ok, .none, tokenValue win, .ofNat 3 (tokenLength win), .ofNat 32 (tokenLength win), 0#64⟩
    else .zeros .truncated := by
  rw [u29Result, withToken_eq]
  by_cases h : tokenLength win ≤ rem.toNat <;> simp [h, Response.done]

/-- I29 (R67). -/
theorem i29_response (win : Word64) (rem : Word32) : responseOf (i29Result ⟨win, rem⟩) =
    if tokenLength win ≤ rem.toNat then
      ⟨.ok, .none, ((tokenValue win).setWidth 29).signExtend 32, .ofNat 3 (tokenLength win),
        .ofNat 32 (tokenLength win), 0#64⟩
    else .zeros .truncated := by
  rw [i29Result, withToken_eq]
  by_cases h : tokenLength win ≤ rem.toNat <;> simp [h, Response.done, signed29_eq_signExtend]

/-- STRH (R75). -/
theorem strh_response (win : Word64) (rem : Word32) : responseOf (strhResult ⟨win, rem⟩) =
    if tokenLength win ≤ rem.toNat then
      if tokenValue win = 1#32 then
        ⟨.ok, .empty, 0#32, .ofNat 3 (tokenLength win), .ofNat 32 (tokenLength win), 0#64⟩
      else if (tokenValue win).getLsbD 0 then
        ⟨.ok, .inline, tokenValue win >>> 1, .ofNat 3 (tokenLength win), .ofNat 32 (tokenLength win), 0#64⟩
      else
        ⟨.ok, .reference, tokenValue win >>> 1 ^^^ 0x10000000#32, .ofNat 3 (tokenLength win),
          .ofNat 32 (tokenLength win), 0#64⟩
    else .zeros .truncated := by
  rw [strhResult, withToken_eq]
  by_cases h : tokenLength win ≤ rem.toNat
  · simp only [h, if_true, responseOf_ok, Response.done, stringValue, stringKind_tokenValue, refIndex_tokenValue,
      payload_tokenValue]
    by_cases h1 : tokenValue win = 1#32
    · rw [if_pos h1, if_pos h1]
    · rw [if_neg h1, if_neg h1]
      cases hd : (tokenValue win).getLsbD 0 <;> rfl
  · simp [h]

/-- STRX (R76). -/
theorem strx_response (win : Word64) (rem : Word32) : responseOf (strxResult ⟨win, rem⟩) =
    if tokenLength win ≤ rem.toNat then
      if tokenValue win = 1#32 then
        ⟨.ok, .empty, 0#32, .ofNat 3 (tokenLength win), .ofNat 32 (tokenLength win), 0#64⟩
      else if (tokenValue win).getLsbD 0 then
        if rem.toNat < tokenLength win + (tokenValue win >>> 1).toNat then .zeros .truncated
        else ⟨.ok, .inline, tokenValue win >>> 1, .ofNat 3 (tokenLength win),
          .ofNat 32 (tokenLength win + (tokenValue win >>> 1).toNat), 0#64⟩
      else
        ⟨.ok, .reference, tokenValue win >>> 1 ^^^ 0x10000000#32, .ofNat 3 (tokenLength win),
          .ofNat 32 (tokenLength win), 0#64⟩
    else .zeros .truncated := by
  rw [strxResult, withToken_eq]
  by_cases h : tokenLength win ≤ rem.toNat
  · simp only [h, if_true, stringKind_tokenValue, stringValue, refIndex_tokenValue, payload_tokenValue,
      BitVec.lt_def, header_add_body_toNat, Response.done]
    by_cases h1 : tokenValue win = 1#32
    · rw [if_pos h1, if_pos h1]; rfl
    · rw [if_neg h1, if_neg h1]
      cases hd : (tokenValue win).getLsbD 0
      · rfl
      · simp only [if_true, header_add_body]
        by_cases hb : rem.toNat < tokenLength win + (tokenValue win >>> 1).toNat
        · rw [if_pos hb, if_pos hb]; rfl
        · rw [if_neg hb, if_neg hb]; rfl
  · simp [h]

/-- REFH (R80). -/
theorem refh_response (win : Word64) (rem : Word32) : responseOf (refhResult ⟨win, rem⟩) =
    if tokenLength win ≤ rem.toNat then
      ⟨.ok, if (tokenValue win).getLsbD 0 then .inline else .reference, tokenValue win >>> 1 ^^^ 0x10000000#32,
        .ofNat 3 (tokenLength win), .ofNat 32 (tokenLength win), 0#64⟩
    else .zeros .truncated := by
  rw [refhResult, withToken_eq]
  by_cases h : tokenLength win ≤ rem.toNat
  · simp only [h, if_true, responseOf_ok, Response.done, referenceKind_tokenValue, refIndex_tokenValue]
  · simp [h]

/-- DDEC (R70). -/
theorem ddec_response (win : Word64) (rem : Word32) : responseOf (ddecResult ⟨win, rem⟩) =
    if rem.toNat < 8 then .zeros .truncated else ⟨.ok, .none, 0#32, 0#3, 8#32, byteswap64 win⟩ := by
  simp only [ddecResult, BitVec.lt_def, Config.winBytes, concatLanes_eq_byteswap64]
  by_cases h : rem.toNat < 8 <;> simp [h, Response.done]

theorem wireByte_eq (x : Word64) {i : Nat} (h : i < 8) : wireByte x i = lane x (7 - i) := by
  unfold wireByte lane
  rw [show 56 - 8 * i = 8 * (7 - i) by omega]

/-- DENC (R71). -/
theorem denc_response (x : Word64) :
    responseOf (dencResult x) = ⟨.ok, .none, 0#32, 0#3, 0#32, byteswap64 x⟩ := by
  have : packLanes (wireByte x) = byteswap64 x :=
    eq_of_lanes fun i h => by rw [lane_packLanes _ h, lane_byteswap64 _ h, wireByte_eq x h]
  simp [dencResult, Response.done, this]

end Sys2Proof.Machine
end

