-- ==== Sys2Proof/Laws/Memory.lean ====
section
/-! SUPPORT. The host's buffer: a read after a write, and every memory operation keeps the canonical form. -/

namespace Sys2Proof.Machine

theorem Memory.wfAbove_mono {a b : Nat} {m : Memory} (h : Memory.wfAbove b m = true) (hab : a ≤ b) :
    Memory.wfAbove a m = true := by
  cases m with
  | nil => rfl
  | cons c rest =>
    simp only [Memory.wfAbove, Bool.and_eq_true, decide_eq_true_eq] at h ⊢
    exact ⟨⟨by omega, h.1.2⟩, h.2⟩

/-- An offset below every cell reads as the unlisted byte. -/
theorem Memory.read_of_wfAbove {a b : Nat} {m : Memory} (h : Memory.wfAbove b m = true) (hab : a < b) :
    m.read a = Config.unlistedByte := by
  induction m generalizing b with
  | nil => rfl
  | cons c rest ih =>
    simp only [Memory.wfAbove, Bool.and_eq_true, decide_eq_true_eq] at h
    rw [Memory.read, if_neg (by omega)]
    exact ih h.2 (by omega)

theorem Memory.wfAbove_cell_append {a : Nat} {b : Byte} {m : Memory} (h : Memory.wfAbove (a + 1) m = true) :
    Memory.wfAbove a (Memory.cell a b ++ m) = true := by
  unfold Memory.cell
  split
  · exact Memory.wfAbove_mono h (by omega)
  · rename_i hb
    simp [Memory.wfAbove, hb, h]

theorem Memory.wfAbove_write {lo a : Nat} {b : Byte} {m : Memory} (h : Memory.wfAbove lo m = true) (hlo : lo ≤ a) :
    Memory.wfAbove lo (m.write a b) = true := by
  induction m generalizing lo with
  | nil => exact Memory.wfAbove_mono (by simpa [Memory.write] using Memory.wfAbove_cell_append (a := a) (b := b) (m := []) rfl) hlo
  | cons c rest ih =>
    simp only [Memory.wfAbove, Bool.and_eq_true, decide_eq_true_eq] at h
    rw [Memory.write]
    split
    · rename_i hak
      refine Memory.wfAbove_mono (Memory.wfAbove_cell_append ?_) hlo
      simp only [Memory.wfAbove, Bool.and_eq_true, decide_eq_true_eq]
      exact ⟨⟨by omega, h.1.2⟩, h.2⟩
    · split
      · rename_i hak
        subst hak
        exact Memory.wfAbove_mono (Memory.wfAbove_cell_append h.2) hlo
      · simp only [Memory.wfAbove, Bool.and_eq_true, decide_eq_true_eq]
        exact ⟨⟨h.1.1, h.1.2⟩, ih h.2 (by omega)⟩

/-- A write keeps the canonical form. -/
theorem Memory.wf_write {m : Memory} (h : m.wf = true) (a : Nat) (b : Byte) : (m.write a b).wf = true :=
  Memory.wfAbove_write h (Nat.zero_le a)

theorem Memory.wf_writeBytes {m : Memory} (h : m.wf = true) (a : Nat) (bs : List Byte) :
    (m.writeBytes a bs).wf = true := by
  induction bs generalizing m a with
  | nil => exact h
  | cons b bs ih => exact ih (Memory.wf_write h a b) (a + 1)

theorem Memory.read_cell_append {a x : Nat} {b : Byte} {m : Memory} (h : Memory.wfAbove (a + 1) m = true) :
    Memory.read (Memory.cell a b ++ m) x = if x = a then b else m.read x := by
  unfold Memory.cell
  split
  · rename_i hb
    subst hb
    split
    · rename_i hx
      subst hx
      exact Memory.read_of_wfAbove h (by omega)
    · rfl
  · simp [Memory.read, eq_comm]

/-- A read after a write: the written offset gives the byte, every other offset is left alone. -/
theorem Memory.read_write {m : Memory} (h : m.wf = true) (a x : Nat) (b : Byte) :
    (m.write a b).read x = if x = a then b else m.read x := by
  have key : ∀ (lo : Nat) (m : Memory), Memory.wfAbove lo m = true →
      (m.write a b).read x = if x = a then b else m.read x := by
    intro lo m
    induction m generalizing lo with
    | nil => intro _; simpa [Memory.write] using Memory.read_cell_append (a := a) (x := x) (b := b) (m := []) rfl
    | cons c rest ih =>
      intro h
      simp only [Memory.wfAbove, Bool.and_eq_true, decide_eq_true_eq] at h
      rw [Memory.write]
      split
      · rename_i hak
        apply Memory.read_cell_append
        simp only [Memory.wfAbove, Bool.and_eq_true, decide_eq_true_eq]
        exact ⟨⟨by omega, h.1.2⟩, h.2⟩
      · split
        · rename_i hak
          subst hak
          rw [Memory.read_cell_append h.2]
          split
          · rfl
          · rw [Memory.read, if_neg (by omega)]
        · rename_i h1 h2
          simp only [Memory.read, ih (c.1 + 1) h.2]
          by_cases hc : c.1 = x
          · rw [if_pos hc, if_pos hc, if_neg (by omega)]
          · rw [if_neg hc, if_neg hc]
  exact key 0 m h

theorem Memory.read_writeBytes {m : Memory} (h : m.wf = true) (a x : Nat) (bs : List Byte) :
    (m.writeBytes a bs).read x = if a ≤ x then (bs[x - a]?).getD (m.read x) else m.read x := by
  induction bs generalizing m a with
  | nil => simp [Memory.writeBytes]
  | cons b bs ih =>
    rw [Memory.writeBytes, ih (Memory.wf_write h a b), Memory.read_write h]
    by_cases hx : x = a
    · subst hx; simp
    · by_cases hlt : a ≤ x
      · rw [if_pos (by omega), if_neg hx, if_pos hlt, show x - a = (x - (a + 1)) + 1 by omega]
        simp
      · rw [if_neg (by omega), if_neg hx, if_neg hlt]

/-- A cell of memory after a write was there before or is the written one. -/
theorem Memory.mem_write {m : Memory} {a : Nat} {b : Byte} {c : Host.Cell} (h : c ∈ m.write a b) :
    c ∈ m ∨ c = (a, b) := by
  induction m with
  | nil =>
    simp only [Memory.write, Memory.cell] at h
    split at h <;> simp_all
  | cons d rest ih =>
    simp only [Memory.write, Memory.cell] at h
    split at h
    · split at h <;> simp_all
      rcases h with h | h | h <;> simp [h]
    · split at h
      · split at h <;> simp_all
        rcases h with h | h <;> simp [h]
      · simp only [List.mem_cons] at h ⊢
        rcases h with h | h
        · exact Or.inl (Or.inl h)
        · rcases ih h with h | h
          · exact Or.inl (Or.inr h)
          · exact Or.inr h

theorem Memory.mem_writeBytes {m : Memory} {a : Nat} {bs : List Byte} {c : Host.Cell} (h : c ∈ m.writeBytes a bs) :
    c ∈ m ∨ c.1 < a + bs.length := by
  induction bs generalizing m a with
  | nil => exact Or.inl h
  | cons b bs ih =>
    rcases ih h with h | h
    · rcases Memory.mem_write h with h | h
      · exact Or.inl h
      · subst h; right; simp
    · right; simp only [List.length_cons]; omega

end Sys2Proof.Machine
end

