-- ==== Sys2Proof/Laws/PerInstr.lean ====
section
/-! SUPPORT. Laws stated of every row of the table, one lemma per constructor. -/

namespace Sys2Proof.Laws.EncodeLength

/-- How many bytes a row's image has: a request 13 (log 1), a token its n (R51), a header 4 (log 2), a double 8 (R57). -/
def imageLength : Instr → Nat
  | .u29 _ _ => 13
  | .i29 _ _ => 13
  | .strh _ _ => 13
  | .strx _ _ => 13
  | .refh _ _ => 13
  | .ddec _ _ => 13
  | .denc _ _ => 13
  | .reserved7 _ _ => 13
  | .varint1 _ => 1
  | .varint2 _ _ => 2
  | .varint3 _ _ _ => 3
  | .varint4 _ _ _ _ => 4
  | .header _ _ => 4
  | .double _ => 8

/-- The image of a row has the row's length. -/
def Statement (i : Instr) : Prop := (encode i).length = imageLength i

theorem u29 (win : Word64) (rem : Word32) : Statement (.u29 win rem) := length_bytesLE _ _
theorem i29 (win : Word64) (rem : Word32) : Statement (.i29 win rem) := length_bytesLE _ _
theorem strh (win : Word64) (rem : Word32) : Statement (.strh win rem) := length_bytesLE _ _
theorem strx (win : Word64) (rem : Word32) : Statement (.strx win rem) := length_bytesLE _ _
theorem refh (win : Word64) (rem : Word32) : Statement (.refh win rem) := length_bytesLE _ _
theorem ddec (win : Word64) (rem : Word32) : Statement (.ddec win rem) := length_bytesLE _ _
theorem denc (win : Word64) (rem : Word32) : Statement (.denc win rem) := length_bytesLE _ _
theorem reserved7 (win : Word64) (rem : Word32) : Statement (.reserved7 win rem) := length_bytesLE _ _
theorem varint1 (a : BitVec 7) : Statement (.varint1 a) := rfl
theorem varint2 (a b : BitVec 7) : Statement (.varint2 a b) := rfl
theorem varint3 (a b c : BitVec 7) : Statement (.varint3 a b c) := rfl
theorem varint4 (a b c : BitVec 7) (d : Byte) : Statement (.varint4 a b c d) := rfl
theorem header (p : BitVec 28) (d : BitVec 1) : Statement (.header p d) := length_bytesBE _ _
theorem double (p : Word64) : Statement (.double p) := length_bytesBE _ _

end Sys2Proof.Laws.EncodeLength
end

