-- ==== Sys2Proof/Laws/Step.lean ====
section
/-! SUPPORT. What a step can do, said once. -/

namespace Sys2Proof.Machine

/-- A step that offered requests wait for runs the oldest one. -/
theorem step_of_requests {s : State} {bs : List Byte} {rest : List (List Byte)} {i : Instr}
    (h : s.requests = bs :: rest) (hd : decode bs = .ok i) : step s = exec i (s.withRequests rest) := by
  simp only [step, h, hd]

/-- A step with nothing to answer changes nothing. -/
theorem step_of_idle {s : State} (h : s.requests = []) (hp : s.program = []) : step s = .next s := by
  simp only [step, h, hp]

/-- A step of the driver's program runs the line's request and lets the driver read the response. -/
theorem step_of_line {s : State} {l : Line} {ls : List Line} (h : s.requests = []) (hp : s.program = l :: ls)
    (hc : s.cur ≤ s.len) :
    step s = .next (State.chain { s with program := ls, op := l.op, win := s.lineWin l, rem := s.lineRem,
                                         rsp := responseOf (requestResult l.op (s.lineWin l) s.lineRem) }) := by
  have e : step s = afterLine (exec (s.lineRequest l) (s.withProgram ls)) := by
    unfold step
    rw [h, hp]
    exact if_neg (Nat.not_lt.mpr hc)
  rw [e, State.lineRequest, exec_request_next]
  rfl

/-- If a step answers a next state, it was one of three: an offered request was answered, a program line was run, or
there was nothing to do. -/
theorem step_next_cases {s t : State} (h : step s = .next t) :
    (∃ bs rest op win rem, s.requests = bs :: rest ∧ decode bs = .ok (.ofRequest op win rem) ∧
      t = { s with requests := rest, op := op, win := win, rem := rem,
                   rsp := responseOf (requestResult op win rem) }) ∨
    (∃ l ls, s.requests = [] ∧ s.program = l :: ls ∧ s.cur ≤ s.len ∧
      t = State.chain { s with program := ls, op := l.op, win := s.lineWin l, rem := s.lineRem,
                               rsp := responseOf (requestResult l.op (s.lineWin l) s.lineRem) }) ∨
    (s.requests = [] ∧ s.program = [] ∧ t = s) := by
  cases hr : s.requests with
  | cons bs rest =>
    left
    cases hd : decode bs with
    | error e => simp [step, hr, hd] at h
    | ok i =>
      rw [step_of_requests hr hd] at h
      cases hi : i.isRequest with
      | false => rw [exec_of_not_request hi] at h; cases h
      | true =>
        obtain ⟨op, win, rem, rfl⟩ := (isRequest_iff i).mp hi
        rw [exec_request_next] at h
        cases h
        exact ⟨bs, rest, op, win, rem, rfl, hd, rfl⟩
  | nil =>
    right
    cases hp : s.program with
    | nil =>
      rw [step_of_idle hr hp] at h
      cases h
      exact Or.inr ⟨rfl, rfl, rfl⟩
    | cons l ls =>
      left
      by_cases hc : s.cur ≤ s.len
      · rw [step_of_line hr hp hc] at h
        cases h
        exact ⟨l, ls, rfl, rfl, hc, by rw [hr]⟩
      · simp [step, hr, hp, Nat.lt_of_not_le hc] at h

/-- A run of any machine goes on from the next state of its first step. -/
theorem run_succ_of_next (M : Host.Core) {s t : M.State} (k : Nat) (h : M.step s = .next t) :
    M.run (k + 1) s = M.run k t := by
  rw [Host.Core.run, h]

/-- A run of the machine whose first step answers a next state goes on from there. -/
theorem run_core_succ {s t : State} (k : Nat) (h : step s = .next t) :
    Host.Core.run core (k + 1) s = Host.Core.run core k t :=
  run_succ_of_next core k h

/-- A run with nothing to answer stays where it is. -/
theorem run_core_idle {s : State} (h : s.requests = []) (hp : s.program = []) (k : Nat) :
    Host.Core.run core k s = .next s := by
  induction k with
  | zero => rfl
  | succ k ih => exact (run_core_succ k (step_of_idle h hp)).trans ih

/-- `REM` of a line's request, as a number (R85). -/
theorem State.lineRem_toNat (s : State) : s.lineRem.toNat = min (s.len - s.cur) 0xFFFFFFFF := by
  simp only [State.lineRem, Config.remMax, BitVec.toNat_ofNat]; omega

/-- A lane of a line's request (R85). -/
theorem State.lane_lineWin {s : State} {l : Line} (h : l.op ≠ 6#3) {i : Nat} (hi : i < 8) :
    lane (s.lineWin l) i = (s.bufByte (s.cur + i)).getD (lane l.x i) := by
  rw [State.lineWin, if_neg (show ¬ l.op = Config.opDenc from h), lane_packLanes _ hi, State.lineLane]

/-- A byte of a loaded buffer (R85). -/
theorem State.bufByte_load (s : State) (bs : List Byte) (ls : List Line) (a : Nat) :
    (s.load bs ls).bufByte a = if a < bs.length then some (bs[a]?.getD (Config.unlistedByte)) else none := by
  rw [State.bufByte, State.load_len, State.load_mem, Memory.read_writeBytes rfl]
  simp [Memory.read]

end Sys2Proof.Machine
end

