-- ==== Sys2Proof/Tests/Slice0.lean ====
section
/-! SUPPORT. Tests. Expected results are the spec's own: the vectors of 95_test_vectors.md (named by table and token) or a
word written out from the spec's encoding (30_encoding.md R45, R46, R51, R55, R57). Then one witness for the hypotheses
of each statement. -/

namespace Sys2Proof.Tests

open Sys2Proof.Machine

/-! ## Helpers -/

/-- The window whose first lanes hold these bytes, the rest 0. -/
def window (bs : List Byte) : Word64 := packLanes fun i => bs.getD i 0#8

/-- The state an outcome goes on to. -/
def nextState? : Host.Outcome State Fault Refusal → Option State
  | .next t => some t
  | .fault _ => none
  | .refused _ => none

/-- What right after reset an instruction is answered with. -/
def ask (i : Instr) : Option Response := (nextState? (exec i .reset)).map State.rsp

/-- The response of a line after one step, and the cursor and program it leaves. -/
def lineStep (s : State) : Option (Response × Nat × List Line) :=
  (nextState? (step s)).map fun t => (t.rsp, t.cur, t.program)

/-- A response to a varint-based operation, as the vectors write it. -/
def ok (kind : Kind) (value hb nb : Nat) : Option Response :=
  some ⟨.ok, kind, .ofNat 32 value, .ofNat 3 hb, .ofNat 32 nb, 0#64⟩

/-- The fault response `TRUNCATED / NONE / 0 / 0 / 0`. -/
def truncated : Option Response := some ⟨.truncated, .none, 0#32, 0#3, 0#32, 0#64⟩

/-! ## Well-formedness: one ill-formed term per check -/

theorem test_wellFormed_u29 : (Instr.u29 0#64 0#32).wellFormed = true := by decide
theorem test_illFormed_reserved_code : (Instr.reserved7 0#64 0#32).wellFormed = false := by decide
theorem test_illFormed_wire_format : (Instr.varint1 1#7).wellFormed = false := by decide
theorem test_illFormed_line : (Line.mk 7#3 0#64).wellFormed = false := by decide

/-! ## Decoding: words written out from the encodings, every constructor -/

/-- A request word `REM ‖ WIN ‖ OP` written field by field, here `REM = 2`, `WIN = 0x81`, as bytes: the code is the low
three bits of the first byte, the window starts at bit 3, `REM` at bit 67. -/
theorem test_decode_u29 : decode [0b00001000#8, 0b00000100#8, 0#8, 0#8, 0#8, 0#8, 0#8, 0#8, 0b00010000#8, 0#8, 0#8, 0#8, 0#8] =
    .ok (.u29 0x81#64 2#32) := by decide
theorem test_decode_i29 : decode [0b00001001#8, 0b00000100#8, 0#8, 0#8, 0#8, 0#8, 0#8, 0#8, 0b00010000#8, 0#8, 0#8, 0#8, 0#8] =
    .ok (.i29 0x81#64 2#32) := by decide
theorem test_decode_strh : decode [0b00001010#8, 0b00000100#8, 0#8, 0#8, 0#8, 0#8, 0#8, 0#8, 0b00010000#8, 0#8, 0#8, 0#8, 0#8] =
    .ok (.strh 0x81#64 2#32) := by decide
theorem test_decode_strx : decode [0b00001011#8, 0b00000100#8, 0#8, 0#8, 0#8, 0#8, 0#8, 0#8, 0b00010000#8, 0#8, 0#8, 0#8, 0#8] =
    .ok (.strx 0x81#64 2#32) := by decide
theorem test_decode_refh : decode [0b00001100#8, 0b00000100#8, 0#8, 0#8, 0#8, 0#8, 0#8, 0#8, 0b00010000#8, 0#8, 0#8, 0#8, 0#8] =
    .ok (.refh 0x81#64 2#32) := by decide
theorem test_decode_ddec : decode [0b00001101#8, 0b00000100#8, 0#8, 0#8, 0#8, 0#8, 0#8, 0#8, 0b00010000#8, 0#8, 0#8, 0#8, 0#8] =
    .ok (.ddec 0x81#64 2#32) := by decide
/-- The highest bit of each field: `REM = 0x80000000`, `WIN = 0x8000000000000000`. -/
theorem test_decode_denc : decode [0b00000110#8, 0#8, 0#8, 0#8, 0#8, 0#8, 0#8, 0#8, 0b00000100#8, 0#8, 0#8, 0#8, 0b00000100#8] =
    .ok (.denc 0x8000000000000000#64 0x80000000#32) := by decide
theorem test_decode_reserved7 : decode [0b00000111#8, 0#8, 0#8, 0#8, 0#8, 0#8, 0#8, 0#8, 0#8, 0#8, 0#8, 0#8, 0#8] =
    .ok (.reserved7 0#64 0#32) := by decide
theorem test_decode_varint1 : decode [0b01010101#8] = .ok (.varint1 0b1010101#7) := by decide
theorem test_decode_varint2 : decode [0b10000001#8, 0b01000000#8] = .ok (.varint2 0b0000001#7 0b1000000#7) := by decide
theorem test_decode_varint3 : decode [0b10000001#8, 0b11000000#8, 0b00000011#8] =
    .ok (.varint3 0b0000001#7 0b1000000#7 0b0000011#7) := by decide
theorem test_decode_varint4 : decode [0b10000001#8, 0b11000000#8, 0b10000011#8, 0b10000000#8] =
    .ok (.varint4 0b0000001#7 0b1000000#7 0b0000011#7 0b10000000#8) := by decide
/-- `h = 0b00000_00000000_00000000_00001011`: payload 5, discriminator 1 (R55, 90_conflicts.md C2). -/
theorem test_decode_header : decode [0#8, 0#8, 0#8, 0b00001011#8] = .ok (.header 5#28 1#1) := by decide
theorem test_decode_double : decode [0x3F#8, 0xF0#8, 0#8, 0#8, 0#8, 0#8, 0#8, 0x01#8] =
    .ok (.double 0x3FF0000000000001#64) := by decide

theorem test_decode_rejects_length : decode [0#8, 0#8, 0#8, 0#8, 0#8] = .error .badLength := by decide
theorem test_decode_rejects_pad_bit :
    decode [0#8, 0#8, 0#8, 0#8, 0#8, 0#8, 0#8, 0#8, 0#8, 0#8, 0#8, 0#8, 0b00001000#8] = .error .padBitSet := by decide
theorem test_decode_rejects_cut_token : decode [0x81#8] = .error .tokenCutShort := by decide
theorem test_decode_rejects_bytes_after : decode [0x01#8, 0x01#8] = .error .bytesAfterToken := by decide

/-- The table's own numbering: a code of three bits, a two-byte token with `S[0]` on top, an eight-byte double. -/
theorem test_table_words : decodeTableWord 8 4 = some (.refh 0#64 0#32) ∧
    decodeTableWord 16 0x8100 = some (.varint2 1#7 0#7) ∧ decodeTableWord 64 0 = some (.double 0#64) := by decide

/-! ## The operations: vectors of 95_test_vectors.md -/

/-- V-A `80 80 80 80`: bit 7 of byte 4 is data. -/
theorem test_u29_fourth_byte : ask (.u29 (window [0x80#8, 0x80#8, 0x80#8, 0x80#8]) 4#32) = ok .none 0x80 4 4 := by decide
/-- V-A `81 00`, REM 1: in the lane, not in the slice. -/
theorem test_u29_not_in_slice : ask (.u29 (window [0x81#8, 0x00#8]) 1#32) = truncated := by decide
/-- V-A `C0 80 80 00`: -2^28. -/
theorem test_i29_most_negative : ask (.i29 (window [0xC0#8, 0x80#8, 0x80#8, 0x00#8]) 4#32) = ok .none 0xF0000000 4 4 := by
  decide
/-- V-A `BF FF FF FF`: the largest positive value. -/
theorem test_i29_largest : ask (.i29 (window [0xBF#8, 0xFF#8, 0xFF#8, 0xFF#8]) 4#32) = ok .none 0x0FFFFFFF 4 4 := by decide
/-- V-B `80 01`: the overlong sentinel. -/
theorem test_strh_overlong_sentinel : ask (.strh (window [0x80#8, 0x01#8]) 2#32) = ok .empty 0 2 2 := by decide
/-- V-B `FF FF FF FE`: the largest reference. -/
theorem test_strh_largest_reference :
    ask (.strh (window [0xFF#8, 0xFF#8, 0xFF#8, 0xFE#8]) 4#32) = ok .reference 0x1FFFFFFF 4 4 := by decide
/-- V-B `0B 68 65 6C 6C 6F`: "hello", corrected S6. -/
theorem test_strx_hello :
    ask (.strx (window [0x0B#8, 0x68#8, 0x65#8, 0x6C#8, 0x6C#8, 0x6F#8]) 6#32) = ok .inline 5 1 6 := by decide
/-- V-B `FF FF FF FF` at 0x10000003 and one short of it. -/
theorem test_strx_longest : ask (.strx (window [0xFF#8, 0xFF#8, 0xFF#8, 0xFF#8]) 0x10000003#32) =
      ok .inline 0x0FFFFFFF 4 0x10000003 ∧
    ask (.strx (window [0xFF#8, 0xFF#8, 0xFF#8, 0xFF#8]) 0x10000002#32) = truncated := by decide
/-- V-B `01`: REFH has no sentinel. -/
theorem test_refh_one : ask (.refh (window [0x01#8]) 1#32) = ok .inline 0x10000000 1 1 := by decide
/-- V-B `02`: S7 corrected. -/
theorem test_refh_two : ask (.refh (window [0x02#8]) 1#32) = ok .reference 0x10000001 1 1 := by decide
/-- V-C `01 23 45 67 89 AB CD EF`: every lane moves to its mirror. -/
theorem test_ddec_lanes : ask (.ddec 0xEFCDAB8967452301#64 8#32) =
    some ⟨.ok, .none, 0#32, 0#3, 8#32, 0x0123456789ABCDEF#64⟩ := by decide
/-- V-C seven bytes: nothing partial. -/
theorem test_ddec_short : ask (.ddec 0x000000000000F03F#64 7#32) = truncated := by decide
/-- V-D `0x7FF8000000000000`, REM 0. -/
theorem test_denc_nan : ask (.denc 0x7FF8000000000000#64 0#32) =
    some ⟨.ok, .none, 0#32, 0#3, 0#32, 0x000000000000F87F#64⟩ := by decide
/-- V-E, REM 0: the illegal code is checked first. -/
theorem test_reserved7_empty_slice : ask (.reserved7 0#64 0#32) = some ⟨.illegalOp, .none, 0#32, 0#3, 0#32, 0#64⟩ := by
  decide

/-- S11: `enc_u29` at its thresholds and at -1 and -2^28. -/
theorem test_encU29 : encU29 0x7F#32 = [0x7F#8] ∧ encU29 0x80#32 = [0x81#8, 0x00#8] ∧
    encU29 0x3FFF#32 = [0xFF#8, 0x7F#8] ∧ encU29 0x4000#32 = [0x81#8, 0x80#8, 0x00#8] ∧
    encU29 0x1FFFFF#32 = [0xFF#8, 0xFF#8, 0x7F#8] ∧ encU29 0x200000#32 = [0x80#8, 0xC0#8, 0x80#8, 0x00#8] ∧
    encU29 0xFFFFFFFF#32 = [0xFF#8, 0xFF#8, 0xFF#8, 0xFF#8] ∧
    encU29 0xF0000000#32 = [0xC0#8, 0x80#8, 0x80#8, 0x00#8] := by decide

/-! ## The driver: programs P1, P4, P5 of 95_test_vectors.md, one step each -/

/-- P1: the string "hello", then the double 1.0. -/
def p1 : State := State.reset.load [0x0B#8, 0x68#8, 0x65#8, 0x6C#8, 0x6C#8, 0x6F#8, 0x3F#8, 0xF0#8, 0#8, 0#8, 0#8, 0#8, 0#8, 0#8]
  [⟨3#3, 0#64⟩, ⟨5#3, 0#64⟩]

theorem test_p1_request : p1.lineWin ⟨3#3, 0#64⟩ = 0xF03F6F6C6C65680B#64 ∧ p1.lineRem = 14#32 := by decide
theorem test_p1_strx : lineStep p1 = some (⟨.ok, .inline, 5#32, 1#3, 6#32, 0#64⟩, 6, [⟨5#3, 0#64⟩]) := by decide
theorem test_p1_ddec : lineStep { p1 with cur := 6, program := [⟨5#3, 0#64⟩] } =
    some (⟨.ok, .none, 0#32, 0#3, 8#32, 0x3FF0000000000000#64⟩, 14, []) := by decide
/-- The body of P1's literal is "hello" (R42). -/
theorem test_p1_body : (nextState? (step p1)).map (fun t => t.literalBody 0) =
    some [some 0x68#8, some 0x65#8, some 0x6C#8, some 0x6C#8, some 0x6F#8] := by decide

/-- P4 at its second step: a literal of which two body bytes have arrived. -/
def p4 : State := { State.reset.load [0x03#8, 0x41#8, 0x0B#8, 0x68#8, 0x65#8] [⟨3#3, 0#64⟩, ⟨0#3, 0#64⟩] with cur := 2 }

theorem test_p4_request : p4.lineWin ⟨3#3, 0#64⟩ = 0x000000000065680B#64 ∧ p4.lineRem = 3#32 := by decide
theorem test_p4_fault_ends_run : lineStep p4 = some (⟨.truncated, .none, 0#32, 0#3, 0#32, 0#64⟩, 2, []) := by decide

/-- P5: DENC of -1.0. -/
def p5 : State := { State.reset with program := [⟨6#3, 0xBFF0000000000000#64⟩] }

theorem test_p5_denc : lineStep p5 = some (⟨.ok, .none, 0#32, 0#3, 0#32, 0x000000000000F0BF#64⟩, 0, []) := by decide
theorem test_p5_store : (nextState? (step p5)).map (fun t => (t.storeDout.mem, t.storeDout.len)) =
    some ([(0, 0xBF#8), (1, 0xF0#8)], 8) := by decide

/-- Writing the byte an unlisted offset reads as removes the cell. -/
theorem test_memory_canonical : Memory.write [(1, 5#8), (4, 7#8)] 4 0#8 = [(1, 5#8)] ∧
    Memory.write [(1, 5#8), (4, 7#8)] 2 9#8 = [(1, 5#8), (2, 9#8), (4, 7#8)] := by decide

/-! ## Witnesses: for each statement with hypotheses, a state and operands that meet them, clause by clause -/

theorem witness_EncodeOfDecode : decode [0x80#8, 0x00#8] = .ok (.varint2 0#7 0#7) := by decide

theorem witness_TableWordRunsNext : decodeTableWord 8 3 = some (.strx 0#64 0#32) ∧
    decodeTableWord 32 0x80808000 = some (.varint4 0#7 0#7 0#7 0#8) := by decide

theorem witness_StepRunsOfferedRequest :
    (State.reset.offerFirst (encode (.u29 1#64 1#32))).requests = encode (.u29 1#64 1#32) :: [] ∧
    decode (encode (.u29 1#64 1#32)) = .ok (.u29 1#64 1#32) := by decide

/-- A line whose slice fills its lanes and runs past them (P1), one whose slice ends inside the window (P4: lane 2 is the
last byte, lane 3 is the line's), one that is `DENC` (P5). -/
theorem witness_StepRunsProgramLine :
    (p1.requests = [] ∧ p1.program = ⟨3#3, 0#64⟩ :: [⟨5#3, 0#64⟩] ∧ p1.cur ≤ p1.len ∧ p1.cur + 7 < p1.len) ∧
    (p4.requests = [] ∧ p4.program = ⟨3#3, 0#64⟩ :: [⟨0#3, 0#64⟩] ∧ p4.cur ≤ p4.len ∧ p4.cur + 2 < p4.len ∧
      p4.len ≤ p4.cur + 3) ∧
    (p5.requests = [] ∧ p5.program = ⟨6#3, 0xBFF0000000000000#64⟩ :: [] ∧ p5.cur ≤ p5.len) := by decide

/-- Reset idles; P5 with its cursor one beyond its empty buffer stops. -/
theorem witness_StepIdlesOrStopsByName :
    (State.reset.requests = [] ∧ State.reset.program = []) ∧
    ({ p5 with cur := 1 }.requests = [] ∧ { p5 with cur := 1 }.program = ⟨6#3, 0xBFF0000000000000#64⟩ :: [] ∧
      { p5 with cur := 1 }.len < { p5 with cur := 1 }.cur) := by decide

/-- P1 answers `OK`, P4 faults. -/
theorem witness_CursorChains :
    (p1.requests = [] ∧ p1.program = ⟨3#3, 0#64⟩ :: [⟨5#3, 0#64⟩] ∧ p1.cur ≤ p1.len ∧
      (nextState? (step p1)).map (fun t => t.rsp.status) = some .ok) ∧
    (p4.requests = [] ∧ p4.program = ⟨3#3, 0#64⟩ :: [⟨0#3, 0#64⟩] ∧ p4.cur ≤ p4.len ∧
      (nextState? (step p4)).map (fun t => t.rsp.status) = some .truncated) := by decide

theorem witness_FaultEndsTheRun :
    p4.requests = [] ∧ p4.program = ⟨3#3, 0#64⟩ :: [⟨0#3, 0#64⟩] ∧ p4.cur ≤ p4.len ∧
    (nextState? (step p4)).map (fun t => t.rsp.status) = some .truncated := by decide

theorem witness_ProgramRunsAsDriverSays : State.reset.requests = [] := rfl

/-- Each token form, in a slice that ends with it. -/
theorem witness_TokenFormsGiveTheirBits :
    (Slice.mk (window [0x7F#8]) 1#32).startsWith [tokenByte false 0x7F#7] ∧
    (Slice.mk (window [0x81#8, 0x00#8]) 2#32).startsWith [tokenByte true 1#7, tokenByte false 0#7] ∧
    (Slice.mk (window [0x81#8, 0x80#8, 0x00#8]) 3#32).startsWith [tokenByte true 1#7, tokenByte true 0#7, tokenByte false 0#7] ∧
    (Slice.mk (window [0x81#8, 0x80#8, 0x80#8, 0xFF#8]) 4#32).startsWith
      [tokenByte true 1#7, tokenByte true 0#7, tokenByte true 0#7, 0xFF#8] := by decide

/-- A two-byte token in a slice of exactly two bytes, and of one: the two clauses of U29, I29, STRH and REFH. -/
theorem witness_token_fits_or_not :
    tokenLength (window [0x81#8, 0x00#8]) ≤ (2#32).toNat ∧ (1#32).toNat < tokenLength (window [0x81#8, 0x00#8]) := by decide

/-- The clauses of STRX: the sentinel, a reference, a literal whose body just fits, one byte short of it, and a header cut
short. -/
theorem witness_StrxBoundsTheBody :
    (tokenLength (window [0x01#8]) ≤ (1#32).toNat ∧ tokenValue (window [0x01#8]) = 1#32) ∧
    (tokenLength (window [0x02#8]) ≤ (1#32).toNat ∧ (tokenValue (window [0x02#8])).getLsbD 0 = false) ∧
    (tokenValue (window [0x0B#8]) ≠ 1#32 ∧ (tokenValue (window [0x0B#8])).getLsbD 0 = true ∧
      tokenLength (window [0x0B#8]) + (tokenValue (window [0x0B#8]) >>> 1).toNat ≤ (6#32).toNat) ∧
    (tokenValue (window [0x0B#8]) ≠ 1#32 ∧ (tokenValue (window [0x0B#8])).getLsbD 0 = true ∧
      (5#32).toNat < tokenLength (window [0x0B#8]) + (tokenValue (window [0x0B#8]) >>> 1).toNat) ∧
    (1#32).toNat < tokenLength (window [0x81#8, 0x00#8]) := by decide

theorem witness_DdecReadsBigEndian : 8 ≤ (8#32).toNat ∧ (7#32).toNat < 8 := by decide

theorem witness_EveryRequestIsAnswered : ∃ t, exec (.u29 (window [0x01#8]) 1#32) .reset = .next t := ⟨_, rfl⟩

/-- A history of a fault and an answer, then U29. -/
theorem witness_HistoryLeavesNoTrace :
    (∀ i ∈ [Instr.reserved7 0#64 0#32, .denc 5#64 0#32], i.isRequest = true) ∧
    { State.reset with requests := [encode (.reserved7 0#64 0#32), encode (.denc 5#64 0#32), encode (.u29 1#64 1#32)] }.requests =
      [Instr.reserved7 0#64 0#32, .denc 5#64 0#32].map encode ++ [encode (.ofRequest 0#3 1#64 1#32)] := by decide

/-- V-A `01 FF FF FF`, REM 1, against zeros beyond `REM`. -/
theorem witness_UnusedLanesDoNotMatter : (0#3 : BitVec 3) ≠ 6#3 ∧
    window [0x01#8, 0xFF#8, 0xFF#8, 0xFF#8] ≠ window [0x01#8] ∧
    ∀ i < min (1#32).toNat 8, lane (window [0x01#8, 0xFF#8, 0xFF#8, 0xFF#8]) i = lane (window [0x01#8]) i := by decide

theorem witness_LongerSliceKeepsTheResponse :
    Answers (.ofRequest 3#3 (window [0x03#8, 0x41#8]) 2#32) .reset ⟨.ok, .inline, 1#32, 1#3, 2#32, 0#64⟩ ∧
    (2#32).toNat ≤ (3#32).toNat := ⟨⟨_, rfl, by decide⟩, by decide⟩

theorem witness_SaturatedLengthLosesNothing :
    0x10000003 ≤ (0x10000003#32).toNat ∧ 0x10000003 ≤ (0xFFFFFFFF#32).toNat := by decide

theorem witness_SentinelIsTheValueOne :
    (Slice.mk (window [0x01#8]) 1#32).startsWith [0x01#8] ∧
    (Slice.mk (window [0x80#8, 0x01#8]) 2#32).startsWith [0x80#8, 0x01#8] ∧
    (Slice.mk (window [0x80#8, 0x80#8, 0x01#8]) 3#32).startsWith [0x80#8, 0x80#8, 0x01#8] ∧
    (Slice.mk (window [0x80#8, 0x80#8, 0x80#8, 0x01#8]) 4#32).startsWith [0x80#8, 0x80#8, 0x80#8, 0x01#8] := by decide

/-- The ends of the signed range, and the largest unsigned value. -/
theorem witness_ReferenceEncoderRoundTrips :
    (-2 ^ 28 ≤ (0xF0000000#32).toInt ∧ (0xF0000000#32).toInt ≤ 2 ^ 28 - 1 ∧
      (Slice.mk (window [0xC0#8, 0x80#8, 0x80#8, 0x00#8]) 4#32).startsWith (encU29 0xF0000000#32)) ∧
    (-2 ^ 28 ≤ (0x0FFFFFFF#32).toInt ∧ (0x0FFFFFFF#32).toInt ≤ 2 ^ 28 - 1 ∧
      (Slice.mk (window [0xBF#8, 0xFF#8, 0xFF#8, 0xFF#8]) 4#32).startsWith (encU29 0x0FFFFFFF#32)) ∧
    ((0x1FFFFFFF#32).toNat ≤ 0x1FFFFFFF ∧
      (Slice.mk (window [0xFF#8, 0xFF#8, 0xFF#8, 0xFF#8]) 4#32).startsWith (encU29 0x1FFFFFFF#32)) := by decide

theorem witness_ReferenceEncoderIsShortest : (0x1FFFFFFF#32).toNat ≤ 0x1FFFFFFF := by decide

theorem witness_StringLiteralRoundTrips :
    State.reset.requests = [] ∧ 1 ≤ [0x41#8].length ∧ [0x41#8].length ≤ 0x0FFFFFFF := by decide

theorem witness_DriverDoubleRoundTrips :
    p5.requests = [] ∧ p5.program = [⟨6#3, 0xBFF0000000000000#64⟩] ∧ p5.cur ≤ p5.len := by decide

theorem witness_sound_reset : State.reset.rsp.Sound := ⟨fun h => absurd rfl h, by decide, by decide⟩

theorem witness_LoadingMeetsTheInvariant : State.reset.rsp.Sound := witness_sound_reset

/-- P1 meets the invariant and its step answers a next state. -/
theorem witness_StepKeepsTheInvariant : p1.Inv ∧ ∃ t, step p1 = .next t :=
  ⟨⟨by decide, by decide, by decide, witness_sound_reset, fun _ h => (nomatch h), rfl, fun _ h => (nomatch h),
    fun ⟨_, h, _⟩ => (nomatch h)⟩, ⟨_, rfl⟩⟩

/-- The invariant with a request offered. -/
theorem witness_InvariantRulesOutStops :
    (p1.offerFirst (encode (.u29 1#64 1#32))).Inv ∧
    ∀ bs ∈ (p1.offerFirst (encode (.u29 1#64 1#32))).requests, ∃ i, decode bs = .ok i ∧ i.isRequest = true := by
  refine ⟨⟨by decide, by decide, by decide, witness_sound_reset, fun _ h => (nomatch h), rfl, fun _ h => (nomatch h),
    fun ⟨_, h, _⟩ => (nomatch h)⟩, ?_⟩
  intro bs h
  obtain rfl : bs = encode (.u29 1#64 1#32) := by
    rcases List.mem_cons.mp h with h | h
    · exact h
    · cases h
  exact ⟨.u29 1#64 1#32, by decide, rfl⟩

end Sys2Proof.Tests
end

section
/-! SUPPORT. A request image decodes to its request, a step answers it, and what a response can be: the lemmas the
statements about the state and the ports (10_state.md) are settled by. -/

namespace Sys2Proof

/-! ## The image of a request (R45; log 1) -/

@[simp] theorem encode_ofRequest (op : BitVec 3) (win : Word64) (rem : Word32) :
    encode (.ofRequest op win rem) = requestImage op win rem := by
  rcases Machine.code_cases op with rfl | rfl | rfl | rfl | rfl | rfl | rfl | rfl <;> rfl

theorem valueLE_requestImage (op : BitVec 3) (win : Word64) (rem : Word32) :
    valueLE (requestImage op win rem) = (reqWord op win rem).toNat := by
  rw [requestImage, valueLE_bytesLE]
  exact Nat.mod_eq_of_lt ((reqWord op win rem).isLt.trans (by decide))

theorem decode_requestImage (op : BitVec 3) (win : Word64) (rem : Word32) :
    decode (requestImage op win rem) = .ok (.ofRequest op win rem) := by
  have hlen : (requestImage op win rem).length = 13 := length_bytesLE _ _
  have hval := valueLE_requestImage op win rem
  rw [decode, if_pos hlen, decodeRequest, hval, if_pos (reqWord op win rem).isLt, BitVec.ofNat_toNat,
    BitVec.setWidth_eq, decodeReqWord_reqWord]

theorem decode_tableImage_of_decodeTableWord {nbits w : Nat} {i : Instr} (h : decodeTableWord nbits w = some i) :
    decode (tableImage nbits w) = .ok i := by
  unfold decodeTableWord at h
  cases hd : decode (tableImage nbits w) with
  | error e => simp [hd, Except.toOption] at h
  | ok j => simpa [hd, Except.toOption] using h

end Sys2Proof

namespace Sys2Proof.Machine

/-! ## Answers -/

/-- The response of a request is a function of the request (R14). -/
theorem answers_ofRequest (op : BitVec 3) (win : Word64) (rem : Word32) (s : State) :
    Answers (.ofRequest op win rem) s (responseOf (requestResult op win rem)) :=
  (answers_ofRequest_iff op win rem s _).mpr rfl

/-- Only a request completes (R46; log 2). -/
theorem isRequest_of_exec_next {i : Instr} {s t : State} (h : exec i s = .next t) : i.isRequest = true := by
  cases hi : i.isRequest with
  | true => rfl
  | false => rw [exec_of_not_request hi] at h; cases h

theorem exec_next_of_isRequest {i : Instr} (h : i.isRequest = true) (s : State) : ∃ t, exec i s = .next t := by
  obtain ⟨op, win, rem, rfl⟩ := (isRequest_iff i).mp h
  exact ⟨_, exec_request_next op win rem s⟩

/-! ## Lanes beyond `REM` (R24) -/

/-- The varint read, and what goes on from it, see the lanes below `REM` only. -/
theorem withToken_congr {win win' : Word64} {rem : Word32} (h : ∀ i < min rem.toNat 8, lane win i = lane win' i)
    (k : BitVec 29 → Nat → Except Trap Response) : withToken ⟨win, rem⟩ k = withToken ⟨win', rem⟩ k := by
  simp only [withToken_eq, ← tokenLength_le_congr h]
  by_cases hfit : tokenLength win ≤ rem.toNat
  · have h4 := tokenLength_le win
    obtain ⟨hn, hv⟩ := token_congr (win := win) (win' := win') fun i hi => h i (by omega)
    rw [hn, hv]
  · rw [if_neg hfit, if_neg hfit]

theorem ddecResult_congr {win win' : Word64} {rem : Word32} (h : ∀ i < min rem.toNat 8, lane win i = lane win' i) :
    ddecResult ⟨win, rem⟩ = ddecResult ⟨win', rem⟩ := by
  by_cases hshort : rem < BitVec.ofNat 32 Config.winBytes
  · simp only [ddecResult, if_pos hshort]
  · have h8 : 8 ≤ rem.toNat := by simpa [BitVec.lt_def, Config.winBytes] using hshort
    rw [eq_of_lanes fun i hi => h i (by omega)]

theorem requestResult_congr {op : BitVec 3} {win win' : Word64} {rem : Word32} (hop : op ≠ 6#3)
    (h : ∀ i < min rem.toNat 8, lane win i = lane win' i) : requestResult op win rem = requestResult op win' rem := by
  rcases code_cases op with rfl | rfl | rfl | rfl | rfl | rfl | rfl | rfl
  · exact withToken_congr h _
  · exact withToken_congr h _
  · exact withToken_congr h _
  · exact withToken_congr h _
  · exact withToken_congr h _
  · exact ddecResult_congr h
  · exact absurd rfl hop
  · rfl

/-! ## What a response can be (R21 to R23) -/

/-- The result of a legal operation: `TruncatedInput`, or an `OK` response of one of these kinds. -/
inductive OkOrTruncated (kinds : List Kind) : Except Trap Response → Prop where
  | ok {r : Response} (hstatus : r.status = .ok) (hkind : r.kind ∈ kinds) : OkOrTruncated kinds (.ok r)
  | truncated : OkOrTruncated kinds (.error .truncatedInput)

/-- The kinds a legal code gives with `STATUS = OK` (R22). -/
def okKinds (op : BitVec 3) : List Kind :=
  match op.toNat with
  | 2 => [.reference, .inline, .empty]
  | 3 => [.reference, .inline, .empty]
  | 4 => [.reference, .inline]
  | _ => [.none]

theorem stringKind_mem (h : BitVec 29) : stringKind h ∈ [Kind.reference, .inline, .empty] := by
  unfold stringKind
  split_ifs <;> decide

theorem referenceKind_mem (h : BitVec 29) : referenceKind h ∈ [Kind.reference, .inline] := by
  unfold referenceKind
  split_ifs <;> decide

theorem OkOrTruncated.done {kinds : List Kind} {k : Kind} (h : k ∈ kinds) (value : Word32) (hb : Nat) (nb : Word32)
    (dout : Word64) : OkOrTruncated kinds (.ok (.done k value hb nb dout)) :=
  .ok rfl h

theorem OkOrTruncated.withToken {kinds : List Kind} {k : BitVec 29 → Nat → Except Trap Response}
    (hk : ∀ h n, OkOrTruncated kinds (k h n)) (sl : Slice) : OkOrTruncated kinds (Machine.withToken sl k) := by
  rw [withToken_eq]
  split_ifs
  · exact hk _ _
  · exact .truncated

theorem OkOrTruncated.response {kinds : List Kind} {e : Except Trap Response} (h : OkOrTruncated kinds e) :
    responseOf e = .zeros .truncated ∨ ((responseOf e).status = .ok ∧ (responseOf e).kind ∈ kinds) := by
  cases h with
  | ok hstatus hkind => exact .inr ⟨hstatus, hkind⟩
  | truncated => exact .inl rfl

theorem strxResult_okOrTruncated (sl : Slice) : OkOrTruncated [.reference, .inline, .empty] (strxResult sl) := by
  refine .withToken (fun h n => ?_) sl
  have hkind := stringKind_mem h
  split
  · split_ifs
    · exact .truncated
    · exact .done (by decide) _ _ _ _
  · exact .done hkind _ _ _ _

theorem ddecResult_okOrTruncated (sl : Slice) : OkOrTruncated [.none] (ddecResult sl) := by
  unfold ddecResult
  split_ifs
  · exact .truncated
  · exact .done (by decide) _ _ _ _

theorem requestResult_okOrTruncated {op : BitVec 3} (hop : op ≠ 7#3) (win : Word64) (rem : Word32) :
    OkOrTruncated (okKinds op) (requestResult op win rem) := by
  have hnone : Kind.none ∈ [Kind.none] := by decide
  rcases code_cases op with rfl | rfl | rfl | rfl | rfl | rfl | rfl | rfl
  · exact .withToken (fun _ _ => .done hnone _ _ _ _) _
  · exact .withToken (fun _ _ => .done hnone _ _ _ _) _
  · exact .withToken (fun h _ => .done (stringKind_mem h) _ _ _ _) _
  · exact strxResult_okOrTruncated _
  · exact .withToken (fun h _ => .done (referenceKind_mem h) _ _ _ _) _
  · exact ddecResult_okOrTruncated _
  · exact .done hnone _ _ _ _
  · exact absurd rfl hop

/-- A request is answered ILLEGAL_OP, which code 7 alone is, TRUNCATED, or `OK` with a kind of its code. -/
theorem response_cases (op : BitVec 3) (win : Word64) (rem : Word32) :
    (op = 7#3 ∧ responseOf (requestResult op win rem) = .zeros .illegalOp) ∨
    (op ≠ 7#3 ∧ responseOf (requestResult op win rem) = .zeros .truncated) ∨
    (op ≠ 7#3 ∧ (responseOf (requestResult op win rem)).status = .ok ∧
      (responseOf (requestResult op win rem)).kind ∈ okKinds op) := by
  by_cases hop : op = 7#3
  · subst hop; exact .inl ⟨rfl, rfl⟩
  · exact .inr ((requestResult_okOrTruncated hop win rem).response.imp (⟨hop, ·⟩) (⟨hop, ·⟩))

@[simp] theorem Response.zeros_status (st : Status) : (Response.zeros st).status = st := rfl

@[simp] theorem Response.zeros_kind (st : Status) : (Response.zeros st).kind = .none := rfl

theorem Response.zeros_sound (st : Status) : (Response.zeros st).Sound where
  fault_zeros _ := rfl
  hb_le := Nat.zero_le _
  nb_le := Nat.zero_le _

theorem Status.code_ne_three (st : Status) : st.code ≠ 3#2 := by
  cases st <;> decide

/-! ## Offered requests (log 7) -/

theorem State.withFetchWord_requests (s : State) (nbits w : Nat) :
    (s.withFetchWord nbits w).requests = tableImage nbits w :: s.requests := rfl

theorem State.withFetchWord_withRequests (s : State) (nbits w : Nat) :
    (s.withFetchWord nbits w).withRequests s.requests = s := rfl

/-- A step answers the oldest offered request; only the ports change, and the request is no longer offered. -/
theorem step_of_offered {s : State} {op : BitVec 3} {win : Word64} {rem : Word32} {rest : List (List Byte)}
    (h : s.requests = encode (.ofRequest op win rem) :: rest) :
    step s = .next { s with requests := rest, op := op, win := win, rem := rem,
                            rsp := responseOf (requestResult op win rem) } := by
  rw [encode_ofRequest] at h
  rw [step_of_requests h (decode_requestImage op win rem), exec_request_next]
  rfl

/-- As many steps as there are earlier requests answer them all, and leave no trace but on the ports: the rest of a run
starts from the same state with the later requests offered. -/
theorem run_of_offered (earlier : List Instr) (hreq : ∀ i ∈ earlier, i.isRequest = true) (rest : List (List Byte))
    (s : State) (h : s.requests = earlier.map encode ++ rest) :
    ∃ op win rem rsp, ∀ k, Host.Core.run core (earlier.length + k) s =
      Host.Core.run core k { s with requests := rest, op := op, win := win, rem := rem, rsp := rsp } := by
  induction earlier generalizing s with
  | nil =>
    obtain rfl : s.requests = rest := h
    exact ⟨s.op, s.win, s.rem, s.rsp, fun k => by rw [List.length_nil, Nat.zero_add]⟩
  | cons i earlier ih =>
    obtain ⟨hi, hearlier⟩ := List.forall_mem_cons.mp hreq
    obtain ⟨op, win, rem, rfl⟩ := (isRequest_iff i).mp hi
    obtain ⟨op', win', rem', rsp', hrun⟩ := ih hearlier
      { s with requests := earlier.map encode ++ rest, op := op, win := win, rem := rem,
               rsp := responseOf (requestResult op win rem) } rfl
    refine ⟨op', win', rem', rsp', fun k => ?_⟩
    rw [List.length_cons, Nat.add_right_comm, run_core_succ _ (step_of_offered h)]
    exact hrun k

end Sys2Proof.Machine
end

section
/-! The statements about the state and the ports (10_state.md), settled. -/

namespace Sys2Proof.Machine

/-- Settles O24: a request changes the ports alone, and a row that is no request is refused. -/
theorem everyRequestIsAnswered : Obligations.EveryRequestIsAnswered := by
  unfold Obligations.EveryRequestIsAnswered
  constructor
  · intro op win rem s
    exact ⟨_, _, exec_request_next op win rem s, rfl, State.bufByte_congr rfl rfl⟩
  · intro i s t h
    exact (isRequest_iff i).mp (isRequest_of_exec_next h)

/-- Settles O26, by induction on the earlier requests (`run_of_offered`) and one more step. -/
theorem historyLeavesNoTrace : Obligations.HistoryLeavesNoTrace := by
  unfold Obligations.HistoryLeavesNoTrace
  intro s earlier op win rem hreq h
  obtain ⟨op', win', rem', rsp', hrun⟩ := run_of_offered earlier hreq _ s h
  refine ⟨{ s with requests := [], op := op, win := win, rem := rem, rsp := responseOf (requestResult op win rem) },
    ?_, rfl, answers_ofRequest op win rem .reset, rfl, rfl, rfl, rfl, rfl⟩
  rw [hrun 1]
  exact run_core_succ 0 (step_of_offered rfl)

/-- Settles O27: the result of every code but DENC's sees the lanes below `REM` only. -/
theorem unusedLanesDoNotMatter : Obligations.UnusedLanesDoNotMatter := by
  unfold Obligations.UnusedLanesDoNotMatter
  intro op win win' rem s s' hop h
  refine ⟨_, answers_ofRequest op win rem s, ?_⟩
  rw [requestResult_congr hop h]
  exact answers_ofRequest op win' rem s'

/-- Settles O28, by the three forms a response can have. -/
theorem faultResponseIsZero : Obligations.FaultResponseIsZero := by
  unfold Obligations.FaultResponseIsZero
  intro op win rem s
  refine ⟨_, answers_ofRequest op win rem s, fun hfault => ?_⟩
  obtain ⟨_, hr⟩ | ⟨_, hr⟩ | ⟨_, hok, _⟩ := response_cases op win rem
  · rw [hr]; rfl
  · rw [hr]; rfl
  · exact absurd hok hfault

/-- Settles O31, by the three forms a response can have; `okKinds` lists the kinds of each code. -/
theorem kindsByOperation : Obligations.KindsByOperation := by
  unfold Obligations.KindsByOperation
  refine ⟨rfl, rfl, rfl, rfl, fun op win rem s => ⟨_, answers_ofRequest op win rem s, ?_⟩⟩
  obtain ⟨_, hr⟩ | ⟨_, hr⟩ | ⟨_, hok, hkind⟩ := response_cases op win rem
  · simp [hr]
  · simp [hr]
  · refine ⟨fun hfault => absurd hok hfault, ?_, ?_, ?_⟩
    · rintro (rfl | rfl | rfl | rfl) <;> simpa [okKinds] using hkind
    · rintro (rfl | rfl) - hnone <;> (rw [hnone] at hkind; exact absurd hkind (by decide))
    · rintro rfl -
      simpa [okKinds] using hkind

/-- Settles O49: an offered image that is a request is answered, and the invariant keeps the driver's cursor inside its
buffer. -/
theorem invariantRulesOutStops : Obligations.InvariantRulesOutStops := by
  unfold Obligations.InvariantRulesOutStops
  intro s hinv hoffered
  cases hr : s.requests with
  | cons bs rest =>
    obtain ⟨i, hd, hi⟩ := hoffered bs (by simp [hr])
    rw [step_of_requests hr hd]
    exact exec_next_of_isRequest hi _
  | nil =>
    cases hp : s.program with
    | nil => exact ⟨s, step_of_idle hr hp⟩
    | cons l ls => exact ⟨_, step_of_line hr hp hinv.cur_le⟩

/-- Settles O7: the offered word is the oldest request, and without it the state is the one it was. -/
theorem tableWordRunsNext : Obligations.TableWordRunsNext := by
  unfold Obligations.TableWordRunsNext
  intro s nbits w i h
  have hd := decode_tableImage_of_decodeTableWord h
  rw [step_of_requests (s.withFetchWord_requests nbits w) hd, s.withFetchWord_withRequests]

/-- Settles O8: `step_of_requests`. -/
theorem stepRunsOfferedRequest : Obligations.StepRunsOfferedRequest := by
  unfold Obligations.StepRunsOfferedRequest
  intro s bs rest i h hd
  exact step_of_requests h hd

/-- Settles O25: the response is a function of the request. -/
theorem equalRequestsEqualResponses : Obligations.EqualRequestsEqualResponses := by
  unfold Obligations.EqualRequestsEqualResponses
  intro op win rem s s'
  exact ⟨_, answers_ofRequest op win rem s, answers_ofRequest op win rem s'⟩

/-- Settles O30, by the three forms a response can have. -/
theorem statusCodes : Obligations.StatusCodes := by
  unfold Obligations.StatusCodes
  refine ⟨rfl, rfl, rfl, fun op win rem s => ⟨_, answers_ofRequest op win rem s, Status.code_ne_three _, ?_⟩⟩
  obtain ⟨hop, hr⟩ | ⟨hop, hr⟩ | ⟨hop, hok, _⟩ := response_cases op win rem
  · exact iff_of_true (by rw [hr, Response.zeros_status]) hop
  · exact iff_of_false (by simp [hr]) hop
  · exact iff_of_false (by simp [hok]) hop

/-- Settles O47: at reset the response ports hold zeros and the driver has nothing. -/
theorem resetMeetsTheInvariant : Obligations.ResetMeetsTheInvariant where
  mem_wf := rfl
  mem_in := nofun
  cur_le := Nat.le_refl 0
  rsp_sound := Response.zeros_sound .ok
  log_sound := nofun
  cur_sum := rfl
  fault_last := nofun
  fault_ends _ := rfl

end Sys2Proof.Machine
end

section
/-! SUPPORT. The loaded buffer byte by byte, the tokens of the reference encoder, and what saturated lengths are
answered: the lemmas the statements about the slice and the buffer (20_memory.md) are settled by. -/

namespace Sys2Proof.Machine

/-! ## Saturated lengths (R27) -/

/-- The most any operation asks for: four header bytes and the longest body (R27). -/
theorem header_add_body_le (win : Word64) : tokenLength win + (tokenValue win >>> 1).toNat ≤ 0x10000003 := by
  have hn := tokenLength_le win
  have hbody := payload_toNat_lt win
  omega

theorem strx_response_of_fits {win : Word64} {rem : Word32}
    (h : tokenLength win + (tokenValue win >>> 1).toNat ≤ rem.toNat) : responseOf (strxResult ⟨win, rem⟩) =
      if tokenValue win = 1#32 then
        ⟨.ok, .empty, 0#32, .ofNat 3 (tokenLength win), .ofNat 32 (tokenLength win), 0#64⟩
      else if (tokenValue win).getLsbD 0 then
        ⟨.ok, .inline, tokenValue win >>> 1, .ofNat 3 (tokenLength win),
          .ofNat 32 (tokenLength win + (tokenValue win >>> 1).toNat), 0#64⟩
      else
        ⟨.ok, .reference, tokenValue win >>> 1 ^^^ 0x10000000#32, .ofNat 3 (tokenLength win),
          .ofNat 32 (tokenLength win), 0#64⟩ := by
  rw [strx_response, if_pos (Nat.le_of_add_right_le h), if_neg (Nat.not_lt.mpr h)]

/-- Each code has one response for all saturated lengths, and a legal code's is `OK`. -/
theorem saturated_response (op : BitVec 3) (win : Word64) :
    ∃ r, (∀ rem : Word32, 0x10000003 ≤ rem.toNat → responseOf (requestResult op win rem) = r) ∧
      (op ≠ 7#3 → r.status = .ok) := by
  have htoken : ∀ {rem : Word32}, 0x10000003 ≤ rem.toNat → tokenLength win ≤ rem.toNat := fun h =>
    (tokenLength_le win).trans ((by decide : 4 ≤ 0x10000003).trans h)
  rcases code_cases op with rfl | rfl | rfl | rfl | rfl | rfl | rfl | rfl
  · exact ⟨_, fun rem h => (u29_response win rem).trans (if_pos (htoken h)), fun _ => rfl⟩
  · exact ⟨_, fun rem h => (i29_response win rem).trans (if_pos (htoken h)), fun _ => rfl⟩
  · exact ⟨_, fun rem h => (strh_response win rem).trans (if_pos (htoken h)), fun _ => by split_ifs <;> rfl⟩
  · exact ⟨_, fun rem h => strx_response_of_fits ((header_add_body_le win).trans h), fun _ => by split_ifs <;> rfl⟩
  · exact ⟨_, fun rem h => (refh_response win rem).trans (if_pos (htoken h)), fun _ => rfl⟩
  · exact ⟨_, fun rem h => (ddec_response win rem).trans (if_neg (by omega)), fun _ => rfl⟩
  · exact ⟨_, fun rem _ => denc_response win, fun _ => rfl⟩
  · exact ⟨_, fun rem _ => rfl, fun hop => absurd rfl hop⟩

/-! ## The loaded buffer (R85) -/

theorem State.bufByte_load_eq_getElem? (s : State) (bs : List Byte) (ls : List Line) (a : Nat) :
    (s.load bs ls).bufByte a = bs[a]? := by
  rw [State.bufByte_load]
  by_cases h : a < bs.length
  · simp [h]
  · simp [h]

/-- A stretch of the buffer that holds these bytes reads as them. -/
theorem State.bufBytes_eq_map_some {s : State} {a : Nat} {body : List Byte}
    (h : ∀ i < body.length, s.bufByte (a + i) = body[i]?) : s.bufBytes a body.length = body.map some := by
  refine List.ext_getElem (by simp [State.bufBytes]) fun i hi _ => ?_
  have hbody : i < body.length := by simpa [State.bufBytes] using hi
  simp [State.bufBytes, h i hbody, hbody]

/-! ## The tokens of the reference encoder (R58) -/

/-- `0x80 | x`, cut to a byte, is a token byte with its continuation flag set. -/
theorem setWidth_or_eq_tokenByte (x : Word32) : (0x80#32 ||| x).setWidth 8 = tokenByte true (x.setWidth 7) := by
  apply BitVec.eq_of_getLsbD_eq
  intro j hj
  simp only [tokenByte, BitVec.getLsbD_append, BitVec.getLsbD_setWidth, BitVec.getLsbD_or]
  interval_cases j <;> simp

theorem setWidth_eq_tokenByte {x : Word32} (h : x.toNat < 2 ^ 7) : x.setWidth 8 = tokenByte false (x.setWidth 7) := by
  apply BitVec.eq_of_toNat_eq
  rw [tokenByte, append_toNat]
  simp only [BitVec.toNat_setWidth, BitVec.toNat_ofBool, Bool.toNat_false]
  omega

theorem and_0x7F_toNat (x : Word32) : (x &&& 0x7F#32).toNat = x.toNat % 2 ^ 7 := by
  rw [BitVec.toNat_and]
  exact Nat.and_two_pow_sub_one_eq_mod x.toNat 7

theorem and_0x7F_setWidth (x : Word32) : (x &&& 0x7F#32).setWidth 7 = x.setWidth 7 := by
  apply BitVec.eq_of_toNat_eq
  simp only [BitVec.toNat_setWidth, and_0x7F_toNat, Nat.mod_mod]

theorem and_0xFF_setWidth (x : Word32) : (x &&& 0xFF#32).setWidth 8 = x.setWidth 8 := by
  apply BitVec.eq_of_toNat_eq
  rw [BitVec.toNat_setWidth, BitVec.toNat_setWidth, BitVec.toNat_and,
    show x.toNat &&& (0xFF#32).toNat = x.toNat % 2 ^ 8 from Nat.and_two_pow_sub_one_eq_mod x.toNat 8, Nat.mod_mod]

theorem and_u29Mask {m : Word32} (h : m.toNat < 2 ^ 29) : m &&& Config.u29Mask = m := by
  apply BitVec.eq_of_toNat_eq
  rw [BitVec.toNat_and, show m.toNat &&& Config.u29Mask.toNat = m.toNat % 2 ^ 29 from
    Nat.and_two_pow_sub_one_eq_mod m.toNat 29, Nat.mod_eq_of_lt h]

/-- The token of a 29-bit value is of one of the four forms of R51, and its data bits are the value's. -/
theorem encU29_cases {m : Word32} (h : m.toNat < 2 ^ 29) :
    (∃ a : BitVec 7, encU29 m = [tokenByte false a] ∧ a.setWidth 32 = m) ∨
    (∃ a b : BitVec 7, encU29 m = [tokenByte true a, tokenByte false b] ∧ (a ++ b).setWidth 32 = m) ∨
    (∃ a b c : BitVec 7, encU29 m = [tokenByte true a, tokenByte true b, tokenByte false c] ∧
      (a ++ b ++ c).setWidth 32 = m) ∨
    (∃ (a b c : BitVec 7) (d : Byte), encU29 m = [tokenByte true a, tokenByte true b, tokenByte true c, d] ∧
      (a ++ b ++ c ++ d).setWidth 32 = m) := by
  have hlow : (m &&& 0x7F#32).setWidth 8 = tokenByte false (m.setWidth 7) := by
    rw [setWidth_eq_tokenByte (by rw [and_0x7F_toNat]; omega), and_0x7F_setWidth]
  simp only [encU29, and_u29Mask h, setWidth_or_eq_tokenByte, and_0x7F_setWidth, hlow, and_0xFF_setWidth, BitVec.le_def,
    BitVec.toNat_ofNat]
  split_ifs with h1 h2 h3
  · refine .inl ⟨_, congrArg (fun b => [b]) (setWidth_eq_tokenByte (by omega)), BitVec.eq_of_toNat_eq ?_⟩
    simp only [BitVec.toNat_setWidth]
    omega
  · refine .inr (.inl ⟨_, _, rfl, BitVec.eq_of_toNat_eq ?_⟩)
    simp only [BitVec.toNat_setWidth, append_toNat, BitVec.toNat_ushiftRight, Nat.shiftRight_eq_div_pow]
    omega
  · refine .inr (.inr (.inl ⟨_, _, _, rfl, BitVec.eq_of_toNat_eq ?_⟩))
    simp only [BitVec.toNat_setWidth, append_toNat, BitVec.toNat_ushiftRight, Nat.shiftRight_eq_div_pow]
    omega
  · refine .inr (.inr (.inr ⟨_, _, _, _, rfl, BitVec.eq_of_toNat_eq ?_⟩))
    simp only [BitVec.toNat_setWidth, append_toNat, BitVec.toNat_ushiftRight, Nat.shiftRight_eq_div_pow]
    omega

/-- A slice that starts with the token of a 29-bit value holds a token of its length and its value. -/
theorem token_of_startsWith_encU29 {sl : Slice} {m : Word32} (hm : m.toNat < 2 ^ 29) (h : sl.startsWith (encU29 m)) :
    tokenLength sl.win = (encU29 m).length ∧ tokenValue sl.win = m := by
  obtain ⟨a, he, hv⟩ | ⟨a, b, he, hv⟩ | ⟨a, b, c, he, hv⟩ | ⟨a, b, c, d, he, hv⟩ := encU29_cases hm <;>
    rw [he] at h ⊢
  · have h0 := Slice.startsWith_lane h (i := 0) rfl
    simp [tokenLength, tokenValue, h0, hv]
  · have h0 := Slice.startsWith_lane h (i := 0) rfl
    have h1 := Slice.startsWith_lane h (i := 1) rfl
    simp [tokenLength, tokenValue, h0, h1, shift_or_two, hv]
  · have h0 := Slice.startsWith_lane h (i := 0) rfl
    have h1 := Slice.startsWith_lane h (i := 1) rfl
    have h2 := Slice.startsWith_lane h (i := 2) rfl
    simp [tokenLength, tokenValue, h0, h1, h2, shift_or_three, hv]
  · have h0 := Slice.startsWith_lane h (i := 0) rfl
    have h1 := Slice.startsWith_lane h (i := 1) rfl
    have h2 := Slice.startsWith_lane h (i := 2) rfl
    have h3 := Slice.startsWith_lane h (i := 3) rfl
    simp [tokenLength, tokenValue, h0, h1, h2, h3, shift_or_four, hv]

theorem encU29_length_le (m : Word32) : (encU29 m).length ≤ 4 := by
  simp only [encU29]
  split_ifs <;> simp

/-! ## A string literal at the cursor (R76, R85) -/

/-- The slice of a line's request starts with the bytes the buffer holds from the cursor on. -/
theorem State.line_startsWith {s : State} {l : Line} {bs : List Byte} (hop : l.op ≠ 6#3) (h8 : bs.length ≤ 8)
    (hfit : s.cur + bs.length ≤ s.len) (h : ∀ i < bs.length, s.bufByte (s.cur + i) = bs[i]?) :
    Slice.startsWith ⟨s.lineWin l, s.lineRem⟩ bs := by
  refine ⟨?_, fun i hi => ?_⟩
  · rw [State.lineRem_toNat]; omega
  · rw [State.lane_lineWin hop (by omega), h i hi]
    simp [hi]

/-- STRX of the header `2L + 1` is a literal of `L` bytes, when they fit (R76). -/
theorem strx_response_of_literal {win : Word64} {rem : Word32} {L : Nat} (h1 : 1 ≤ L) (hL : L ≤ 0x0FFFFFFF)
    (hv : tokenValue win = .ofNat 32 (2 * L + 1)) (hfit : tokenLength win + L ≤ rem.toNat) :
    responseOf (strxResult ⟨win, rem⟩) =
      ⟨.ok, .inline, .ofNat 32 L, .ofNat 3 (tokenLength win), .ofNat 32 (tokenLength win + L), 0#64⟩ := by
  have hnat : (tokenValue win).toNat = 2 * L + 1 := by
    rw [hv, BitVec.toNat_ofNat]; omega
  have hlength : (BitVec.ofNat 32 L).toNat = L := by
    rw [BitVec.toNat_ofNat]; omega
  have hpayload : tokenValue win >>> 1 = .ofNat 32 L := by
    apply BitVec.eq_of_toNat_eq
    rw [BitVec.toNat_ushiftRight, hnat, hlength, Nat.shiftRight_eq_div_pow]
    omega
  have hsentinel : tokenValue win ≠ 1#32 := fun h => by
    rw [h] at hnat
    change 1 = 2 * L + 1 at hnat
    omega
  have hinline : (tokenValue win).getLsbD 0 = true := by
    simp [BitVec.getLsbD, hnat]
  rw [strx_response_of_fits (by rwa [hpayload, hlength]), if_neg hsentinel, if_pos hinline, hpayload, hlength]

/-- A line answered `OK` advances the cursor by `NB` and leaves the buffer alone (R86). -/
theorem step_of_ok_line {s : State} {l : Line} {ls : List Line} {r : Response} (hreq : s.requests = [])
    (hp : s.program = l :: ls) (hc : s.cur ≤ s.len)
    (hr : responseOf (requestResult l.op (s.lineWin l) s.lineRem) = r) (hok : r.status = .ok) :
    ∃ t, step s = .next t ∧ t.rsp = r ∧ t.cur = s.cur + r.nb.toNat ∧ ∀ a, t.bufByte a = s.bufByte a := by
  subst hr
  refine ⟨_, step_of_line hreq hp hc, State.chain_rsp _, State.chain_cur_ok _ hok, ?_⟩
  exact State.bufByte_congr (State.chain_mem _) (State.chain_len _)

end Sys2Proof.Machine
end

section
/-! The statements about the slice and the host's buffer (20_memory.md), settled. -/

namespace Sys2Proof.Machine

/-- Settles O34: each code has one response for all saturated lengths. -/
theorem saturatedLengthLosesNothing : Obligations.SaturatedLengthLosesNothing := by
  unfold Obligations.SaturatedLengthLosesNothing
  intro op win rem rem' s s' h h'
  obtain ⟨r, hr, hok⟩ := saturated_response op win
  exact ⟨r, (answers_ofRequest_iff op win rem s r).mpr (hr rem h).symm,
    (answers_ofRequest_iff op win rem' s' r).mpr (hr rem' h').symm, hok⟩

/-- Settles O43: a read after the writes of a load, which keep the canonical form. -/
theorem loadedBufferReadsBack : Obligations.LoadedBufferReadsBack := by
  unfold Obligations.LoadedBufferReadsBack
  intro s bs ls a
  exact ⟨s.bufByte_load_eq_getElem? bs ls a, Memory.wf_writeBytes rfl 0 bs⟩

/-- Settles O44: the line's slice starts with the header, so STRX reads its length and its value, and the body that
follows in the buffer is what the response announces. -/
theorem stringLiteralRoundTrips : Obligations.StringLiteralRoundTrips := by
  unfold Obligations.StringLiteralRoundTrips
  intro s body tail fill ls hreq h1 hL
  set header := encU29 (.ofNat 32 (2 * body.length + 1)) with hheader
  set s₀ := s.load (header ++ body ++ tail) (⟨3#3, fill⟩ :: ls) with hs₀
  have hbuf : ∀ a, s₀.bufByte a = (header ++ body ++ tail)[a]? := s.bufByte_load_eq_getElem? _ _
  have hcur : s₀.cur = 0 := rfl
  have hlen : s₀.len = header.length + body.length + tail.length := by
    rw [hs₀, State.load_len, List.length_append, List.length_append]
  have h4 : header.length ≤ 4 := encU29_length_le _
  have hstarts : Slice.startsWith ⟨s₀.lineWin ⟨3#3, fill⟩, s₀.lineRem⟩ header :=
    State.line_startsWith (by decide : (3#3 : BitVec 3) ≠ 6#3) (by omega) (by omega) fun i hi => by
      rw [hbuf, hcur, Nat.zero_add, List.append_assoc, List.getElem?_append_left hi]
  obtain ⟨hn, hv⟩ := token_of_startsWith_encU29 (by rw [BitVec.toNat_ofNat]; omega) hstarts
  have hrsp := strx_response_of_literal (rem := s₀.lineRem) h1 hL hv (by
    rw [hn, s₀.lineRem_toNat, ← hheader]; omega)
  rw [hn, ← hheader] at hrsp
  obtain ⟨t, hstep, hr, hcur', hbuf'⟩ := step_of_ok_line (s := s₀)
    (l := ⟨3#3, fill⟩) (ls := ls) hreq rfl (by omega) hrsp rfl
  have hvalue : t.rsp.value.toNat = body.length := by
    rw [hr, BitVec.toNat_ofNat]; omega
  have hhb : t.rsp.hb.toNat = header.length := by
    rw [hr, BitVec.toNat_ofNat]; omega
  refine ⟨t, hstep, by rw [hr], by rw [hr], hvalue, hhb, ?_, ?_⟩
  · rw [hcur', hcur, hhb, BitVec.toNat_ofNat]; omega
  · rw [State.literalBody, hvalue, hhb, Nat.zero_add]
    refine State.bufBytes_eq_map_some fun i hi => ?_
    rw [hbuf', hbuf, List.append_assoc, List.getElem?_append_right (Nat.le_add_right _ _), Nat.add_sub_cancel_left,
      List.getElem?_append_left hi]

end Sys2Proof.Machine
end

section
/-! SUPPORT. The decoder and the encoder, form by form: the lemmas the statements about the byte images
(30_encoding.md) are settled by. -/

namespace Sys2Proof

/-! ## Requests (R45; log 1) -/

/-- A listing word decodes to the request whose fields it holds. -/
theorem decode_listingWord (op : BitVec 3) (win : Word64) (rem : Word32) {w : Nat}
    (h : (reqWord op win rem).toNat = w) : decode (bytesLE 13 w) = .ok (.ofRequest op win rem) :=
  h ▸ decode_requestImage op win rem

theorem encode_decodeReqWord (w : BitVec 99) : encode (decodeReqWord w) = bytesLE 13 w.toNat := by
  rw [decodeReqWord, encode_ofRequest, requestImage, reqWord_extract]

theorem encode_of_decodeRequest {bs : List Byte} {i : Instr} (hlen : bs.length = 13) (h : decodeRequest bs = .ok i) :
    encode i = bs := by
  unfold decodeRequest at h
  split_ifs at h with hlt
  cases h
  rw [encode_decodeReqWord, BitVec.toNat_ofNat, Nat.mod_eq_of_lt hlt, ← hlen, bytesLE_valueLE]

/-! ## Headers and doubles (R55, R57; log 2) -/

theorem isHeaderImage_iff (bs : List Byte) : isHeaderImage bs = true ↔ bs.length = 4 ∧ valueBE bs < 2 ^ 29 := by
  simp [isHeaderImage]

theorem decodeHeaderValue_append (p : BitVec 28) (d : BitVec 1) : decodeHeaderValue (p ++ d) = .header p d := by
  rw [decodeHeaderValue, BitVec.extractLsb'_append_eq_left, BitVec.extractLsb'_append_eq_right]

theorem encode_decodeHeaderValue (h : BitVec 29) : encode (decodeHeaderValue h) = bytesBE 4 h.toNat := by
  have happend : (h.extractLsb' 1 28 ++ h.extractLsb' 0 1 : BitVec 29) = h := BitVec.extractLsb'_append_extractLsb'
  rw [decodeHeaderValue, encode, happend]

theorem decode_header (p : BitVec 28) (d : BitVec 1) : decode (encode (.header p d)) = .ok (.header p d) := by
  have hlen : (encode (.header p d)).length = 4 := Laws.EncodeLength.header p d
  have hlt : (p ++ d).toNat < 2 ^ 29 := (p ++ d).isLt
  have hval : valueBE (encode (.header p d)) = (p ++ d).toNat :=
    (valueBE_bytesBE 4 _).trans (Nat.mod_eq_of_lt (hlt.trans (by decide)))
  rw [decode, if_neg (by omega), if_neg (by omega), if_pos ((isHeaderImage_iff _).mpr ⟨hlen, hval ▸ hlt⟩), hval,
    BitVec.ofNat_toNat, BitVec.setWidth_eq, decodeHeaderValue_append]

theorem decode_double (p : Word64) : decode (encode (.double p)) = .ok (.double p) := by
  have hlen : (encode (.double p)).length = 8 := Laws.EncodeLength.double p
  have hval : valueBE (encode (.double p)) = p.toNat := (valueBE_bytesBE 8 _).trans (Nat.mod_eq_of_lt p.isLt)
  rw [decode, if_neg (by omega), if_pos hlen, hval, BitVec.ofNat_toNat, BitVec.setWidth_eq]

/-! ## Tokens (R51, R52) -/

theorem tokenByte_of_contFlag {b : Byte} {f : Bool} (h : contFlag b = f) : tokenByte f (dataBits b) = b := by
  rw [← h, tokenByte_eta]

theorem decodeToken_varint1 (a : BitVec 7) (rest : List Byte) :
    decodeToken (encode (.varint1 a) ++ rest) = .ok (.varint1 a, rest) := by
  simp [encode, decodeToken]

theorem decodeToken_varint2 (a b : BitVec 7) (rest : List Byte) :
    decodeToken (encode (.varint2 a b) ++ rest) = .ok (.varint2 a b, rest) := by
  simp [encode, decodeToken]

theorem decodeToken_varint3 (a b c : BitVec 7) (rest : List Byte) :
    decodeToken (encode (.varint3 a b c) ++ rest) = .ok (.varint3 a b c, rest) := by
  simp [encode, decodeToken]

theorem decodeToken_varint4 (a b c : BitVec 7) (d : Byte) (rest : List Byte) :
    decodeToken (encode (.varint4 a b c d) ++ rest) = .ok (.varint4 a b c d, rest) := by
  simp [encode, decodeToken]

/-- The bytes a token was read from are the token's own and the bytes it left: each branch that reads a form knows the
flags of its bytes, and a byte is its flag and its data bits. -/
theorem encode_append_of_decodeToken {bs rest : List Byte} {i : Instr} (h : decodeToken bs = .ok (i, rest)) :
    encode i ++ rest = bs := by
  revert h
  fun_cases decodeToken bs <;> intro h <;> cases h <;> simp [encode, tokenByte_of_contFlag, *]

theorem encode_of_decodeWholeToken {bs : List Byte} {i : Instr} (h : decodeWholeToken bs = .ok i) : encode i = bs := by
  unfold decodeWholeToken at h
  split at h
  next => cases h
  next htoken =>
    cases h
    simpa using encode_append_of_decodeToken htoken
  next => cases h

theorem valueLE_append_singleton (bs : List Byte) (b : Byte) :
    valueLE (bs ++ [b]) = valueLE bs + 256 ^ bs.length * b.toNat := by
  induction bs with
  | nil => simp [valueLE]
  | cons c bs ih =>
    simp only [List.cons_append, valueLE, ih, List.length_cons, Nat.pow_succ]
    ring

theorem valueBE_cons (b : Byte) (bs : List Byte) : valueBE (b :: bs) = valueBE bs + 256 ^ bs.length * b.toNat := by
  rw [valueBE, List.reverse_cons, valueLE_append_singleton, List.length_reverse, valueBE]

/-- A byte with its continuation flag set is no header's first: the header's number would need more than 29 bits. -/
theorem isHeaderImage_of_contFlag {b : Byte} (h : contFlag b = true) (bs : List Byte) :
    isHeaderImage (b :: bs) = false := by
  refine Bool.eq_false_iff.mpr fun hheader => ?_
  obtain ⟨hlen, hlt⟩ := (isHeaderImage_iff _).mp hheader
  have hbyte : 2 ^ 7 ≤ b.toNat := Nat.ge_two_pow_of_testBit h
  rw [valueBE_cons, show bs.length = 3 from Nat.succ.inj hlen] at hlt
  omega

/-- Bytes that are one whole token, and no header, decode to the token's row. -/
theorem decode_of_decodeToken {bs : List Byte} {i : Instr} (h : decodeToken bs = .ok (i, [])) {n : Nat}
    (hlen : bs.length = n) (hpos : 0 < n) (hle : n ≤ 4) (hheader : isHeaderImage bs = false) : decode bs = .ok i := by
  rw [decode, if_neg (by omega), if_neg (by omega), hheader, if_neg Bool.false_ne_true, if_neg (by omega),
    decodeWholeToken, h]

theorem decode_of_shortToken {bs : List Byte} {i : Instr} (h : decodeToken bs = .ok (i, [])) {n : Nat}
    (hlen : bs.length = n) (hpos : 0 < n) (hlt : n < 4) : decode bs = .ok i :=
  decode_of_decodeToken h hlen hpos hlt.le (Bool.eq_false_iff.mpr fun hheader => by
    have := ((isHeaderImage_iff bs).mp hheader).1
    omega)

end Sys2Proof
end

section
/-! The statements about the byte images (30_encoding.md), settled. -/

namespace Sys2Proof

open Machine

/-- Settles O3: form by form; a token of four bytes is no header because its first byte has the continuation flag. -/
theorem decodeOfEncode : Obligations.DecodeOfEncode := by
  unfold Obligations.DecodeOfEncode
  intro i
  cases i with
  | u29 win rem => exact decode_requestImage 0#3 win rem
  | i29 win rem => exact decode_requestImage 1#3 win rem
  | strh win rem => exact decode_requestImage 2#3 win rem
  | strx win rem => exact decode_requestImage 3#3 win rem
  | refh win rem => exact decode_requestImage 4#3 win rem
  | ddec win rem => exact decode_requestImage 5#3 win rem
  | denc win rem => exact decode_requestImage 6#3 win rem
  | reserved7 win rem => exact decode_requestImage 7#3 win rem
  | varint1 a => exact decode_of_shortToken (n := 1) (decodeToken_varint1 a []) rfl (by decide) (by decide)
  | varint2 a b => exact decode_of_shortToken (n := 2) (decodeToken_varint2 a b []) rfl (by decide) (by decide)
  | varint3 a b c => exact decode_of_shortToken (n := 3) (decodeToken_varint3 a b c []) rfl (by decide) (by decide)
  | varint4 a b c d =>
    exact decode_of_decodeToken (n := 4) (decodeToken_varint4 a b c d []) rfl (by decide) (by decide)
      (isHeaderImage_of_contFlag (contFlag_tokenByte true a) _)
  | header p d => exact decode_header p d
  | double p => exact decode_double p

/-- Settles O4, along the decoder's branches: in each, the bytes are what their number, or their token, is encoded as. -/
theorem encodeOfDecode : Obligations.EncodeOfDecode := by
  unfold Obligations.EncodeOfDecode
  intro bs i h
  unfold decode at h
  split_ifs at h with hrequest hdouble hheader hlen
  · exact encode_of_decodeRequest hrequest h
  · cases h
    have hlt : valueBE bs < 2 ^ 64 := by simpa [hdouble] using valueBE_lt bs
    rw [encode, BitVec.toNat_ofNat, Nat.mod_eq_of_lt hlt, ← hdouble, bytesBE_valueBE]
  · cases h
    obtain ⟨hfour, hlt⟩ := (isHeaderImage_iff bs).mp hheader
    rw [encode_decodeHeaderValue, BitVec.toNat_ofNat, Nat.mod_eq_of_lt hlt, ← hfour, bytesBE_valueBE]
  · exact encode_of_decodeWholeToken h

/-- Settles O5. -/
theorem requestWordFields : Obligations.RequestWordFields := by
  unfold Obligations.RequestWordFields
  intro op win rem
  rw [encode_ofRequest, valueLE_requestImage, reqWord_toNat]
  exact ⟨length_bytesLE _ _, rfl⟩

/-- Settles O1: the request image of each code. -/
theorem operationCodesDecode : Obligations.OperationCodesDecode := by
  unfold Obligations.OperationCodesDecode
  intro win rem
  exact ⟨decode_requestImage 0#3 win rem, decode_requestImage 1#3 win rem, decode_requestImage 2#3 win rem,
    decode_requestImage 3#3 win rem, decode_requestImage 4#3 win rem, decode_requestImage 5#3 win rem,
    decode_requestImage 6#3 win rem, decode_requestImage 7#3 win rem⟩

/-- Settles O2: each number is the listing word of its request. -/
theorem listingWordsDecode : Obligations.ListingWordsDecode := by
  unfold Obligations.ListingWordsDecode
  exact ⟨decode_listingWord 3#3 _ _ (by decide), decode_listingWord 5#3 _ _ (by decide),
    decode_listingWord 0#3 _ _ (by decide), decode_listingWord 1#3 _ _ (by decide),
    decode_listingWord 4#3 _ _ (by decide), decode_listingWord 2#3 _ _ (by decide),
    decode_listingWord 6#3 _ _ (by decide)⟩

/-- Settles O6: one form at a time. -/
theorem tokenEndsItself : Obligations.TokenEndsItself := by
  unfold Obligations.TokenEndsItself
  intro a b c d rest
  exact ⟨decodeToken_varint1 a rest, decodeToken_varint2 a b rest, decodeToken_varint3 a b c rest,
    decodeToken_varint4 a b c d rest⟩

/-- Settles O23: none of the six rows is a request. -/
theorem wireFormatsAreNoOperations : Obligations.WireFormatsAreNoOperations := by
  unfold Obligations.WireFormatsAreNoOperations
  intro a b c d p e x s
  exact ⟨exec_of_not_request rfl s, exec_of_not_request rfl s, exec_of_not_request rfl s, exec_of_not_request rfl s,
    exec_of_not_request rfl s, exec_of_not_request rfl s⟩

end Sys2Proof
end

section
/-! SUPPORT. The token a slice starts with, what is then answered, and what the reference encoder gives: the lemmas the
statements about the wire formats as data (30_encoding.md) are settled by. -/

namespace Sys2Proof.Machine

/-! ## The token a slice starts with (R51) -/

section
variable {sl : Slice} {a b c : BitVec 7} {d : Byte}

theorem token_of_startsWith_varint1 (h : sl.startsWith [tokenByte false a]) :
    tokenLength sl.win = 1 ∧ tokenValue sl.win = a.setWidth 32 := by
  have h0 := Slice.startsWith_lane h (i := 0) rfl
  simp [tokenLength, tokenValue, h0]

theorem token_of_startsWith_varint2 (h : sl.startsWith [tokenByte true a, tokenByte false b]) :
    tokenLength sl.win = 2 ∧ tokenValue sl.win = (a ++ b).setWidth 32 := by
  have h0 := Slice.startsWith_lane h (i := 0) rfl
  have h1 := Slice.startsWith_lane h (i := 1) rfl
  simp [tokenLength, tokenValue, h0, h1, shift_or_two]

theorem token_of_startsWith_varint3 (h : sl.startsWith [tokenByte true a, tokenByte true b, tokenByte false c]) :
    tokenLength sl.win = 3 ∧ tokenValue sl.win = (a ++ b ++ c).setWidth 32 := by
  have h0 := Slice.startsWith_lane h (i := 0) rfl
  have h1 := Slice.startsWith_lane h (i := 1) rfl
  have h2 := Slice.startsWith_lane h (i := 2) rfl
  simp [tokenLength, tokenValue, h0, h1, h2, shift_or_three]

theorem token_of_startsWith_varint4 (h : sl.startsWith [tokenByte true a, tokenByte true b, tokenByte true c, d]) :
    tokenLength sl.win = 4 ∧ tokenValue sl.win = (a ++ b ++ c ++ d).setWidth 32 := by
  have h0 := Slice.startsWith_lane h (i := 0) rfl
  have h1 := Slice.startsWith_lane h (i := 1) rfl
  have h2 := Slice.startsWith_lane h (i := 2) rfl
  have h3 := Slice.startsWith_lane h (i := 3) rfl
  simp [tokenLength, tokenValue, h0, h1, h2, h3, shift_or_four]

end

/-- The four tokens that spell 1 (R56 (b)). -/
theorem token_of_startsWith_sentinel {sl : Slice} {bs : List Byte}
    (hbs : bs ∈ [[0x01#8], [0x80#8, 0x01#8], [0x80#8, 0x80#8, 0x01#8], [0x80#8, 0x80#8, 0x80#8, 0x01#8]])
    (h : sl.startsWith bs) : tokenLength sl.win = bs.length ∧ tokenValue sl.win = 1#32 := by
  simp only [List.mem_cons, List.not_mem_nil, or_false] at hbs
  obtain rfl | rfl | rfl | rfl := hbs
  · exact token_of_startsWith_varint1 (a := 1#7) h
  · exact token_of_startsWith_varint2 (a := 0#7) (b := 1#7) h
  · exact token_of_startsWith_varint3 (a := 0#7) (b := 0#7) (c := 1#7) h
  · exact token_of_startsWith_varint4 (a := 0#7) (b := 0#7) (c := 0#7) (d := 1#8) h

/-! ## What a token in the slice is answered with -/

section
variable {sl : Slice} {n : Nat} {v : Word32} (htoken : tokenLength sl.win = n ∧ tokenValue sl.win = v)
  (hfit : n ≤ sl.rem.toNat)
include htoken hfit

theorem exec_u29_of_token (s : State) : exec (.u29 sl.win sl.rem) s =
    .next { s with op := 0#3, win := sl.win, rem := sl.rem,
                   rsp := ⟨.ok, .none, v, .ofNat 3 n, .ofNat 32 n, 0#64⟩ } := by
  obtain ⟨rfl, rfl⟩ := htoken
  have hrsp := u29_response sl.win sl.rem
  rw [if_pos hfit] at hrsp
  exact hrsp ▸ exec_request_next 0#3 sl.win sl.rem s

theorem exec_i29_of_token (s : State) : exec (.i29 sl.win sl.rem) s =
    .next { s with op := 1#3, win := sl.win, rem := sl.rem,
                   rsp := ⟨.ok, .none, (v.setWidth 29).signExtend 32, .ofNat 3 n, .ofNat 32 n, 0#64⟩ } := by
  obtain ⟨rfl, rfl⟩ := htoken
  have hrsp := i29_response sl.win sl.rem
  rw [if_pos hfit] at hrsp
  exact hrsp ▸ exec_request_next 1#3 sl.win sl.rem s

end

/-! ## Headers (R56) -/

/-- Only the operations that read a header give a reference, or are REFH. -/
theorem code_of_reference {op : BitVec 3} {k : Kind} (hkind : k ∈ okKinds op) (h : k = .reference ∨ op = 4#3) :
    op = 2#3 ∨ op = 3#3 ∨ op = 4#3 := by
  rcases h with rfl | hop
  · revert op; decide
  · exact .inr (.inr hop)

theorem strh_value_of_reference {win : Word64} {rem : Word32}
    (h : (responseOf (strhResult ⟨win, rem⟩)).kind = .reference) :
    (responseOf (strhResult ⟨win, rem⟩)).value = tokenValue win >>> 1 ^^^ 0x10000000#32 := by
  rw [strh_response] at h ⊢
  split_ifs at h ⊢
  · rfl
  · cases h

theorem strx_value_of_reference {win : Word64} {rem : Word32}
    (h : (responseOf (strxResult ⟨win, rem⟩)).kind = .reference) :
    (responseOf (strxResult ⟨win, rem⟩)).value = tokenValue win >>> 1 ^^^ 0x10000000#32 := by
  rw [strx_response] at h ⊢
  split_ifs at h ⊢
  · cases h
  · rfl
  · cases h

theorem refh_value_of_ok {win : Word64} {rem : Word32} (h : (responseOf (refhResult ⟨win, rem⟩)).status = .ok) :
    (responseOf (refhResult ⟨win, rem⟩)).value = tokenValue win >>> 1 ^^^ 0x10000000#32 := by
  rw [refh_response] at h ⊢
  split_ifs at h ⊢
  · rfl
  · rfl
  · cases h

/-- A reference, and every `OK` response of REFH, has the biased payload as its value (R56 (a), R80). -/
theorem value_of_reference {op : BitVec 3} {win : Word64} {rem : Word32}
    (hok : (responseOf (requestResult op win rem)).status = .ok)
    (h : (responseOf (requestResult op win rem)).kind = .reference ∨ op = 4#3) :
    (responseOf (requestResult op win rem)).value = tokenValue win >>> 1 ^^^ 0x10000000#32 := by
  obtain ⟨_, hr⟩ | ⟨_, hr⟩ | ⟨_, _, hkind⟩ := response_cases op win rem
  · rw [hr] at hok; cases hok
  · rw [hr] at hok; cases hok
  · obtain rfl | rfl | rfl := code_of_reference hkind h
    · exact strh_value_of_reference (h.resolve_right (by decide))
    · exact strx_value_of_reference (h.resolve_right (by decide))
    · exact refh_value_of_ok hok

theorem strh_kind_eq_empty_iff (win : Word64) (rem : Word32) :
    (responseOf (strhResult ⟨win, rem⟩)).kind = .empty ↔ tokenLength win ≤ rem.toNat ∧ tokenValue win = 1#32 := by
  rw [strh_response]
  split_ifs <;> simp [*]

theorem strx_kind_eq_empty_iff (win : Word64) (rem : Word32) :
    (responseOf (strxResult ⟨win, rem⟩)).kind = .empty ↔ tokenLength win ≤ rem.toNat ∧ tokenValue win = 1#32 := by
  rw [strx_response]
  split_ifs <;> simp [*]

theorem refh_kind_ne_empty (win : Word64) (rem : Word32) : (responseOf (refhResult ⟨win, rem⟩)).kind ≠ .empty := by
  rw [refh_response]
  split_ifs <;> nofun

/-! ## The reference encoder (R58, R59) -/

theorem and_u29Mask_toNat (v : Word32) : (v &&& Config.u29Mask).toNat = v.toNat % 2 ^ 29 := by
  rw [BitVec.toNat_and]
  exact Nat.and_two_pow_sub_one_eq_mod v.toNat 29

theorem and_u29Mask_toNat_lt (v : Word32) : (v &&& Config.u29Mask).toNat < 2 ^ 29 := by
  rw [and_u29Mask_toNat]
  exact Nat.mod_lt _ (by decide)

theorem encU29_and_u29Mask (v : Word32) : encU29 (v &&& Config.u29Mask) = encU29 v := by
  simp only [encU29, and_u29Mask (and_u29Mask_toNat_lt v)]

theorem encU29_length {m : Word32} (h : m.toNat < 2 ^ 29) : (encU29 m).length =
    if m.toNat ≤ 0x7F then 1 else if m.toNat ≤ 0x3FFF then 2 else if m.toNat ≤ 0x1FFFFF then 3 else 4 := by
  simp [encU29, and_u29Mask h, BitVec.le_def, apply_ite List.length]

/-- The 29 low bits of a number of the signed range, sign-extended, are the number (R59, R67). -/
theorem signExtend_and_u29Mask {v : Word32} (hlo : -2 ^ 28 ≤ v.toInt) (hhi : v.toInt ≤ 2 ^ 28 - 1) :
    ((v &&& Config.u29Mask).setWidth 29).signExtend 32 = v := by
  apply BitVec.eq_of_toInt_eq
  calc (((v &&& Config.u29Mask).setWidth 29).signExtend 32).toInt
      = ((v.toNat % 2 ^ 29 : Nat) : Int).bmod (2 ^ 29) := by
        rw [BitVec.toInt_signExtend_of_le (by decide), BitVec.toInt_setWidth, and_u29Mask_toNat]
    _ = (v.toNat : Int).bmod (2 ^ 29) := by rw [Int.natCast_mod, Int.emod_bmod]
    _ = v.toInt.bmod (2 ^ 29) := by
        rw [BitVec.toInt_eq_toNat_bmod, Int.bmod_bmod_of_dvd (Nat.pow_dvd_pow 2 (by decide))]
    _ = v.toInt := Int.bmod_eq_of_le (by omega) (by omega)

end Sys2Proof.Machine
end

section
/-! The statements about the wire formats as data and the reference encoder (30_encoding.md), settled. -/

namespace Sys2Proof.Machine

/-- Settles O14: the slice's token is of the form it starts with. -/
theorem tokenFormsGiveTheirBits : Obligations.TokenFormsGiveTheirBits := by
  unfold Obligations.TokenFormsGiveTheirBits
  intro a b c d sl s
  exact ⟨fun h => exec_u29_of_token (token_of_startsWith_varint1 h) h.1 s,
    fun h => exec_u29_of_token (token_of_startsWith_varint2 h) h.1 s,
    fun h => exec_u29_of_token (token_of_startsWith_varint3 h) h.1 s,
    fun h => exec_u29_of_token (token_of_startsWith_varint4 h) h.1 s⟩

/-- Settles O35 by the band of each token length. -/
theorem valueWithinItsBand : Obligations.ValueWithinItsBand := by
  unfold Obligations.ValueWithinItsBand
  intro win rem s
  refine ⟨_, answers_ofRequest 0#3 win rem s, fun hok => ?_⟩
  rw [requestResult_u29, u29_response] at hok ⊢
  split_ifs at hok ⊢ with hfit
  · have hband := tokenValue_band win
    obtain ⟨hn, hv⟩ | ⟨hn, hv⟩ | ⟨hn, hv⟩ | ⟨hn, hv⟩ := hband
    · exact .inl ⟨congrArg (BitVec.ofNat 3) hn, Nat.le_of_lt_succ hv⟩
    · exact .inr (.inl ⟨congrArg (BitVec.ofNat 3) hn, Nat.le_of_lt_succ hv⟩)
    · exact .inr (.inr (.inl ⟨congrArg (BitVec.ofNat 3) hn, Nat.le_of_lt_succ hv⟩))
    · exact .inr (.inr (.inr ⟨congrArg (BitVec.ofNat 3) hn, Nat.le_of_lt_succ hv⟩))
  · cases hok

/-- Settles O36: the XOR adds the bias, because the payload has 28 bits. -/
theorem referenceIndexIsBiased : Obligations.ReferenceIndexIsBiased := by
  unfold Obligations.ReferenceIndexIsBiased
  intro op win rem s
  refine ⟨_, answers_ofRequest op win rem s, fun hok h => ?_⟩
  have hvalue := biasedIndex_toNat win
  have hlt := tokenValue_lt win
  rw [value_of_reference hok h]
  refine ⟨hvalue, BitVec.eq_of_toNat_eq ?_⟩
  rw [BitVec.extractLsb'_toNat, hvalue, Nat.shiftRight_eq_div_pow, BitVec.toNat_ofNat]
  omega

/-- Settles O37: the sentinel is told by the decoded value, whatever the token's length. -/
theorem sentinelIsTheValueOne : Obligations.SentinelIsTheValueOne := by
  unfold Obligations.SentinelIsTheValueOne
  refine ⟨fun bs sl s hbs h => ?_, fun win rem s => ?_⟩
  · obtain ⟨hn, hv⟩ := token_of_startsWith_sentinel hbs h
    have hstrh := strh_response sl.win sl.rem
    have hstrx := strx_response sl.win sl.rem
    have hrefh := refh_response sl.win sl.rem
    rw [hn, hv, if_pos h.1] at hstrh hstrx hrefh
    exact ⟨(answers_ofRequest_iff 2#3 sl.win sl.rem s _).mpr (hstrh.trans (if_pos rfl)).symm,
      (answers_ofRequest_iff 3#3 sl.win sl.rem s _).mpr (hstrx.trans (if_pos rfl)).symm,
      (answers_ofRequest_iff 4#3 sl.win sl.rem s _).mpr hrefh.symm⟩
  · exact ⟨_, _, _, answers_ofRequest 2#3 win rem s, answers_ofRequest 3#3 win rem s, answers_ofRequest 4#3 win rem s,
      strh_kind_eq_empty_iff win rem, (strx_kind_eq_empty_iff win rem).trans (strh_kind_eq_empty_iff win rem).symm,
      refh_kind_ne_empty win rem⟩

/-- Settles O41: the slice holds the token of the masked value. The converse fails on `80 00`, an overlong zero. -/
theorem referenceEncoderRoundTrips : Obligations.ReferenceEncoderRoundTrips := by
  unfold Obligations.ReferenceEncoderRoundTrips
  refine ⟨fun v sl s hlo hhi h => ?_, fun m sl s hm h => ?_, ?_⟩
  · rw [← encU29_and_u29Mask] at h
    have htoken := token_of_startsWith_encU29 (and_u29Mask_toNat_lt v) h
    have hexec := exec_i29_of_token htoken h.1 s
    rwa [signExtend_and_u29Mask hlo hhi, encU29_and_u29Mask] at hexec
  · exact exec_u29_of_token (token_of_startsWith_encU29 (by omega) h) h.1 s
  · exact ⟨[0x80#8, 0x00#8], ⟨0x0080#64, 2#32⟩, 0#32, by decide, ⟨_, rfl, by decide⟩, by decide⟩

/-- Settles O42: a token's length bounds its value, and the value's thresholds are the same bounds. -/
theorem referenceEncoderIsShortest : Obligations.ReferenceEncoderIsShortest := by
  unfold Obligations.ReferenceEncoderIsShortest
  refine ⟨fun v => (encU29_and_u29Mask v).symm, fun v hv => encU29_length (by omega), fun win => ?_⟩
  rw [encU29_length (tokenValue_lt win)]
  have hband := tokenValue_band win
  split_ifs <;> omega

end Sys2Proof.Machine
end

section
/-! SUPPORT. An operation whose response is known, and the bits above the 29 of a token's value: the lemmas the statements
about the varint operations (40_varint.md) are settled by. -/

namespace Sys2Proof.Machine

/-- A request whose response is known puts itself and that response on the ports, and leaves the rest (R14). -/
theorem exec_of_response {op : BitVec 3} {win : Word64} {rem : Word32} {r : Response}
    (h : responseOf (requestResult op win rem) = r) (s : State) :
    exec (.ofRequest op win rem) s = .next { s with op := op, win := win, rem := rem, rsp := r } :=
  h ▸ exec_request_next op win rem s

/-- A token carries 29 data bits, so nothing stands in `VALUE[31:29]` (R66). -/
theorem tokenValue_extract_above_29 (win : Word64) : (tokenValue win).extractLsb' 29 3 = 0#3 := by
  have hlt := tokenValue_lt win
  apply BitVec.eq_of_toNat_eq
  rw [BitVec.extractLsb'_toNat, Nat.shiftRight_eq_div_pow, Nat.div_eq_of_lt hlt]
  rfl

end Sys2Proof.Machine
end

section
/-! The statements about the varint operations (40_varint.md), settled. -/

namespace Sys2Proof.Machine

/-- Settles O15: the two branches of U29's response, and the 29-bit bound of a token's value. -/
theorem u29DecodesItsToken : Obligations.U29DecodesItsToken := by
  unfold Obligations.U29DecodesItsToken
  intro win rem s
  refine ⟨fun hfit => ?_, fun hshort => ?_, tokenValue_extract_above_29 win⟩
  · exact exec_u29_of_token (sl := ⟨win, rem⟩) ⟨rfl, rfl⟩ hfit s
  · have hrsp := (u29_response win rem).trans (if_neg (Nat.not_le.mpr hshort))
    exact exec_of_response (op := 0#3) hrsp s

/-- Settles O16: the two branches of I29's response, whose subtraction is sign extension from bit 28. -/
theorem i29SignExtends : Obligations.I29SignExtends := by
  unfold Obligations.I29SignExtends
  intro win rem s
  refine ⟨fun hfit => ?_, fun hshort => ?_⟩
  · exact exec_i29_of_token (sl := ⟨win, rem⟩) ⟨rfl, rfl⟩ hfit s
  · have hrsp := (i29_response win rem).trans (if_neg (Nat.not_le.mpr hshort))
    exact exec_of_response (op := 1#3) hrsp s

end Sys2Proof.Machine
end

section
/-! SUPPORT. What DDEC and DENC do to a request, and the lanes of `DOUT` stored as the driver's buffer: the lemmas the
statements about the double operations (41_double.md) are settled by. -/

namespace Sys2Proof.Machine

/-! ## The two operations (R70, R71) -/

theorem wireByte_byteswap64 (v : Word64) {i : Nat} (h : i < 8) : wireByte (byteswap64 v) i = lane v i := by
  rw [wireByte_eq _ h, lane_byteswap64 _ (by omega), show 7 - (7 - i) = i by omega]

theorem lane_byteswap64_eq_wireByte (v : Word64) {i : Nat} (h : i < 8) : lane (byteswap64 v) i = wireByte v i := by
  rw [lane_byteswap64 _ h, wireByte_eq _ h]

theorem ddec_response_of_le {win : Word64} {rem : Word32} (h : 8 ≤ rem.toNat) :
    responseOf (ddecResult ⟨win, rem⟩) = ⟨.ok, .none, 0#32, 0#3, 8#32, byteswap64 win⟩ :=
  (ddec_response win rem).trans (if_neg (Nat.not_lt.mpr h))

theorem exec_ddec_of_le {rem : Word32} (h : 8 ≤ rem.toNat) (win : Word64) (s : State) :
    exec (.ddec win rem) s = .next { s with op := 5#3, win := win, rem := rem, rsp :=
      ⟨.ok, .none, 0#32, 0#3, 8#32, byteswap64 win⟩ } :=
  exec_of_response (op := 5#3) (ddec_response_of_le h) s

theorem exec_ddec_of_lt {rem : Word32} (h : rem.toNat < 8) (win : Word64) (s : State) :
    exec (.ddec win rem) s = .next { s with op := 5#3, win := win, rem := rem, rsp := .zeros .truncated } :=
  exec_of_response (op := 5#3) ((ddec_response win rem).trans (if_pos h)) s

theorem exec_denc (x : Word64) (rem : Word32) (s : State) :
    exec (.denc x rem) s = .next { s with op := 6#3, win := x, rem := rem, rsp :=
      ⟨.ok, .none, 0#32, 0#3, 0#32, byteswap64 x⟩ } :=
  exec_of_response (op := 6#3) (denc_response x) s

/-! ## The lanes of `DOUT` as the buffer (95_test_vectors.md P5) -/

@[simp] theorem length_laneBytes (v : Word64) : (laneBytes v).length = 8 := rfl

theorem getElem?_laneBytes (v : Word64) {i : Nat} (h : i < 8) : (laneBytes v)[i]? = some (lane v i) := by
  simp [laneBytes, Config.winBytes, h]

/-- A slice that starts with the lanes of a port has the port as its window, and at least eight bytes. -/
theorem eq_of_startsWith_laneBytes {win v : Word64} {rem : Word32} (h : Slice.startsWith ⟨win, rem⟩ (laneBytes v)) :
    win = v ∧ 8 ≤ rem.toNat :=
  ⟨eq_of_lanes fun _ hi => Slice.startsWith_lane h (getElem?_laneBytes v hi), h.1⟩

theorem State.bufByte_storeDout (s : State) (a : Nat) : s.storeDout.bufByte a = (laneBytes s.rsp.dout)[a]? := by
  rw [← s.bufByte_load_eq_getElem? _ []]
  exact State.bufByte_congr rfl rfl a

/-- A DENC line encodes the line's own operand, consumes nothing, and leaves no request waiting (R71, R85, R86). -/
theorem step_of_denc_line {s : State} {x : Word64} {ls : List Line} (hreq : s.requests = [])
    (hp : s.program = ⟨6#3, x⟩ :: ls) (hc : s.cur ≤ s.len) :
    ∃ t, step s = .next t ∧ t.rsp = ⟨.ok, .none, 0#32, 0#3, 0#32, byteswap64 x⟩ ∧ t.cur = s.cur ∧ t.requests = [] := by
  have hrsp : responseOf (requestResult 6#3 (s.lineWin ⟨6#3, x⟩) s.lineRem) =
      ⟨.ok, .none, 0#32, 0#3, 0#32, byteswap64 x⟩ := denc_response x
  have hstep := step_of_line hreq hp hc
  rw [hrsp] at hstep
  exact ⟨_, hstep, State.chain_rsp _, State.chain_cur_ok _ rfl, (State.chain_requests _).trans hreq⟩

/-- A DDEC line on a buffer that holds the lanes of `DOUT` decodes the port's own bytes and consumes all eight. -/
theorem step_of_ddec_line_storeDout {s : State} (hreq : s.requests = []) (fill : Word64) :
    ∃ u, step { s.storeDout with program := [⟨5#3, fill⟩] } = .next u ∧
      u.rsp = ⟨.ok, .none, 0#32, 0#3, 8#32, byteswap64 s.rsp.dout⟩ ∧ u.cur = 8 := by
  set s₀ : State := { s.storeDout with program := [⟨5#3, fill⟩] }
  have hlen : s₀.len = 8 := rfl
  have hcur : s₀.cur = 0 := rfl
  have hstarts : Slice.startsWith ⟨s₀.lineWin ⟨5#3, fill⟩, s₀.lineRem⟩ (laneBytes s.rsp.dout) :=
    State.line_startsWith (by decide : (5#3 : BitVec 3) ≠ 6#3) (by simp) (by simp [hlen, hcur]) fun i _ => by
      rw [hcur, Nat.zero_add]
      exact s.bufByte_storeDout i
  obtain ⟨hwin, hrem⟩ := eq_of_startsWith_laneBytes hstarts
  obtain ⟨u, hstep, hrsp, hcur', -⟩ := step_of_ok_line (s := s₀) (l := ⟨5#3, fill⟩) hreq rfl (by omega)
    (ddec_response_of_le hrem) rfl
  rw [hwin] at hrsp
  exact ⟨u, hstep, hrsp, hcur'⟩

end Sys2Proof.Machine
end

section
/-! The statements about the double operations (41_double.md), settled. -/

namespace Sys2Proof.Machine

/-- Settles O45: DENC's line gives the bytes of the operand swapped, and DDEC's line on the stored lanes swaps them
back. -/
theorem driverDoubleRoundTrips : Obligations.DriverDoubleRoundTrips := by
  unfold Obligations.DriverDoubleRoundTrips
  intro s x fill hreq hp hc
  obtain ⟨t, hstep, hrsp, hcur, hreq'⟩ := step_of_denc_line hreq hp hc
  obtain ⟨u, hstep', hrsp', hcur'⟩ := step_of_ddec_line_storeDout hreq' fill
  have hdout : u.rsp.dout = x := by
    rw [hrsp', hrsp]
    exact byteswap64_byteswap64 x
  exact ⟨t, u, hstep, hcur, hstep', by rw [hrsp'], hdout, hcur'⟩

/-- Settles O40: both operations give `byteswap64` of their window, which is its own inverse. -/
theorem doubleRoundTrips : Obligations.DoubleRoundTrips := by
  unfold Obligations.DoubleRoundTrips
  refine ⟨byteswap64_byteswap64, fun x rem rem' s h => ?_, fun win rem rem' s h => ?_⟩
  · exact ⟨_, _, exec_denc x rem s, exec_ddec_of_le h _ _, byteswap64_byteswap64 x⟩
  · exact ⟨_, _, exec_ddec_of_le h win s, exec_denc _ rem' _, byteswap64_byteswap64 win⟩

/-- Settles O20: the two branches of DDEC's response; wire byte `i` of `DOUT` is lane `i` of the window. -/
theorem ddecReadsBigEndian : Obligations.DdecReadsBigEndian := by
  unfold Obligations.DdecReadsBigEndian
  intro win rem s
  exact ⟨fun h => exec_ddec_of_le h win s, fun h => exec_ddec_of_lt h win s, fun i hi => wireByte_byteswap64 win hi⟩

/-- Settles O21: DENC's one response; lane `i` of `DOUT` is wire byte `i` of the operand. -/
theorem dencWritesBigEndian : Obligations.DencWritesBigEndian := by
  unfold Obligations.DencWritesBigEndian
  intro x rem s
  exact ⟨exec_denc x rem s, fun i hi => lane_byteswap64_eq_wireByte x hi⟩

end Sys2Proof.Machine
end

section
/-! SUPPORT. The response of STRH and STRX to each form of header, and STRX's response in terms of STRH's: the lemmas the
statements about the string operations (42_string.md) are settled by. -/

namespace Sys2Proof.Machine

variable {win : Word64} {rem : Word32}

/-! ## Form by form (R75, R76) -/

/-- R75's own order of the tests: the sentinel, then a clear `h[0]`, else a literal. -/
theorem strh_response_of_le (hfit : tokenLength win ≤ rem.toNat) : responseOf (strhResult ⟨win, rem⟩) =
    if tokenValue win = 1#32 then
      ⟨.ok, .empty, 0#32, .ofNat 3 (tokenLength win), .ofNat 32 (tokenLength win), 0#64⟩
    else if (tokenValue win).getLsbD 0 = false then
      ⟨.ok, .reference, tokenValue win >>> 1 ^^^ 0x10000000#32, .ofNat 3 (tokenLength win),
        .ofNat 32 (tokenLength win), 0#64⟩
    else
      ⟨.ok, .inline, tokenValue win >>> 1, .ofNat 3 (tokenLength win), .ofNat 32 (tokenLength win), 0#64⟩ := by
  rw [strh_response, if_pos hfit]
  cases (tokenValue win).getLsbD 0 <;> rfl

theorem strh_response_of_lt (hshort : rem.toNat < tokenLength win) :
    responseOf (strhResult ⟨win, rem⟩) = .zeros .truncated :=
  (strh_response win rem).trans (if_neg (Nat.not_le.mpr hshort))

theorem strx_response_of_lt (hshort : rem.toNat < tokenLength win) :
    responseOf (strxResult ⟨win, rem⟩) = .zeros .truncated :=
  (strx_response win rem).trans (if_neg (Nat.not_le.mpr hshort))

theorem strx_response_of_sentinel (hfit : tokenLength win ≤ rem.toNat) (hone : tokenValue win = 1#32) :
    responseOf (strxResult ⟨win, rem⟩) =
      ⟨.ok, .empty, 0#32, .ofNat 3 (tokenLength win), .ofNat 32 (tokenLength win), 0#64⟩ := by
  rw [strx_response, if_pos hfit, if_pos hone]

/-- A header with a clear discriminator is not the sentinel. -/
theorem tokenValue_ne_one_of_reference (hd : (tokenValue win).getLsbD 0 = false) : tokenValue win ≠ 1#32 := by
  intro hone
  rw [hone] at hd
  exact absurd hd (by decide)

theorem strx_response_of_reference (hfit : tokenLength win ≤ rem.toNat) (hd : (tokenValue win).getLsbD 0 = false) :
    responseOf (strxResult ⟨win, rem⟩) =
      ⟨.ok, .reference, tokenValue win >>> 1 ^^^ 0x10000000#32, .ofNat 3 (tokenLength win),
        .ofNat 32 (tokenLength win), 0#64⟩ := by
  rw [strx_response, if_pos hfit, if_neg (tokenValue_ne_one_of_reference hd), hd]
  rfl

theorem strx_response_of_body_le (hone : tokenValue win ≠ 1#32) (hd : (tokenValue win).getLsbD 0 = true)
    (hbody : tokenLength win + (tokenValue win >>> 1).toNat ≤ rem.toNat) :
    responseOf (strxResult ⟨win, rem⟩) =
      ⟨.ok, .inline, tokenValue win >>> 1, .ofNat 3 (tokenLength win),
        .ofNat 32 (tokenLength win + (tokenValue win >>> 1).toNat), 0#64⟩ := by
  rw [strx_response_of_fits hbody, if_neg hone, if_pos hd]

/-- A literal whose body does not fit faults, whether or not its header does. -/
theorem strx_response_of_body_lt (hone : tokenValue win ≠ 1#32) (hd : (tokenValue win).getLsbD 0 = true)
    (hbody : rem.toNat < tokenLength win + (tokenValue win >>> 1).toNat) :
    responseOf (strxResult ⟨win, rem⟩) = .zeros .truncated := by
  rw [strx_response, if_neg hone, if_pos hd, if_pos hbody, ite_self]

/-! ## STRX beside STRH (R77) -/

/-- STRH says INLINE of a literal header alone, and then gives its bare length. -/
theorem literal_of_strh_inline (h : (responseOf (strhResult ⟨win, rem⟩)).kind = .inline) :
    tokenValue win ≠ 1#32 ∧ (tokenValue win).getLsbD 0 = true ∧ responseOf (strhResult ⟨win, rem⟩) =
      ⟨.ok, .inline, tokenValue win >>> 1, .ofNat 3 (tokenLength win), .ofNat 32 (tokenLength win), 0#64⟩ := by
  rw [strh_response] at h ⊢
  split_ifs at h ⊢ with hfit hone hd
  · exact ⟨hone, hd, rfl⟩
  · cases h

theorem strx_response_eq_strh (h : (responseOf (strhResult ⟨win, rem⟩)).kind ≠ .inline) :
    responseOf (strxResult ⟨win, rem⟩) = responseOf (strhResult ⟨win, rem⟩) := by
  rw [strx_response]
  rw [strh_response] at h ⊢
  split_ifs at h ⊢
  · rfl
  · exact absurd rfl h
  · exact absurd rfl h
  · rfl
  · rfl

section
variable {h : Response} (hstrh : h = responseOf (strhResult ⟨win, rem⟩)) (hinline : h.kind = .inline)
include hstrh hinline

theorem strx_response_of_strh_body_lt (hbody : rem.toNat < h.hb.toNat + h.value.toNat) :
    responseOf (strxResult ⟨win, rem⟩) = .zeros .truncated := by
  subst hstrh
  obtain ⟨hone, hd, hrsp⟩ := literal_of_strh_inline hinline
  rw [hrsp, hb_tokenLength] at hbody
  exact strx_response_of_body_lt hone hd hbody

theorem strx_response_of_strh_body_le (hbody : h.hb.toNat + h.value.toNat ≤ rem.toNat) :
    responseOf (strxResult ⟨win, rem⟩) = { h with nb := .ofNat 32 (h.hb.toNat + h.value.toNat) } := by
  subst hstrh
  obtain ⟨hone, hd, hrsp⟩ := literal_of_strh_inline hinline
  rw [hrsp, hb_tokenLength] at hbody ⊢
  exact strx_response_of_body_le hone hd hbody

end

/-- STRX adds a check to STRH's and changes no header field. -/
theorem strh_header_of_strx_ok {x h : Response} (hstrx : x = responseOf (strxResult ⟨win, rem⟩))
    (hstrh : h = responseOf (strhResult ⟨win, rem⟩)) (hok : x.status = .ok) :
    h.status = .ok ∧ x.kind = h.kind ∧ x.value = h.value ∧ x.hb = h.hb := by
  by_cases hinline : h.kind = .inline
  · obtain hbody | hbody := Nat.lt_or_ge rem.toNat (h.hb.toNat + h.value.toNat)
    · rw [hstrx, strx_response_of_strh_body_lt hstrh hinline hbody] at hok
      cases hok
    · rw [strx_response_of_strh_body_le hstrh hinline hbody] at hstrx
      subst hstrx
      exact ⟨hok, rfl, rfl, rfl⟩
  · subst hstrh
    rw [strx_response_eq_strh hinline] at hstrx
    subst hstrx
    exact ⟨hok, rfl, rfl, rfl⟩

theorem strx_truncated_of_strh_truncated (h : (responseOf (strhResult ⟨win, rem⟩)).status = .truncated) :
    (responseOf (strxResult ⟨win, rem⟩)).status = .truncated := by
  rwa [strx_response_eq_strh]
  intro hinline
  obtain ⟨-, -, hrsp⟩ := literal_of_strh_inline hinline
  rw [hrsp] at h
  cases h

end Sys2Proof.Machine
end

section
/-! The statements about the string operations (42_string.md), settled. -/

namespace Sys2Proof.Machine

/-- Settles O17: the header fits and is told apart in R75's order, or the slice ends in it. -/
theorem strhSplitsTheHeader : Obligations.StrhSplitsTheHeader := by
  unfold Obligations.StrhSplitsTheHeader
  intro win rem s
  exact ⟨fun hfit => exec_of_response (op := 2#3) (strh_response_of_le hfit) s,
    fun hshort => exec_of_response (op := 2#3) (strh_response_of_lt hshort) s⟩

/-- Settles O18, one response per clause of R76. -/
theorem strxBoundsTheBody : Obligations.StrxBoundsTheBody := by
  unfold Obligations.StrxBoundsTheBody
  intro win rem s
  exact ⟨fun hfit hone => exec_of_response (op := 3#3) (strx_response_of_sentinel hfit hone) s,
    fun hfit hd => exec_of_response (op := 3#3) (strx_response_of_reference hfit hd) s,
    fun hone hd hbody => exec_of_response (op := 3#3) (strx_response_of_body_le hone hd hbody) s,
    fun hone hd hbody => exec_of_response (op := 3#3) (strx_response_of_body_lt hone hd hbody) s,
    fun hshort => exec_of_response (op := 3#3) (strx_response_of_lt hshort) s⟩

/-- Settles O38: STRX is STRH but for a literal, whose body it bounds and counts; the agreement of the header fields and
of the faults follows from that. -/
theorem strxAgreesWithStrh : Obligations.StrxAgreesWithStrh := by
  unfold Obligations.StrxAgreesWithStrh
  intro win rem s
  exact ⟨_, _, answers_ofRequest 3#3 win rem s, answers_ofRequest 2#3 win rem s, strh_header_of_strx_ok rfl rfl,
    strx_truncated_of_strh_truncated, strx_response_eq_strh, strx_response_of_strh_body_lt rfl,
    strx_response_of_strh_body_le rfl⟩

end Sys2Proof.Machine
end

section
/-! SUPPORT. The response of REFH, and REFH's response in terms of STRH's: the lemmas the statements about the reference
operation (43_reference.md) are settled by. -/

namespace Sys2Proof.Machine

variable {win : Word64} {rem : Word32}

/-! ## The two branches of REFH (R80) -/

theorem refh_response_of_le (hfit : tokenLength win ≤ rem.toNat) : responseOf (refhResult ⟨win, rem⟩) =
    ⟨.ok, if (tokenValue win).getLsbD 0 = true then .inline else .reference, tokenValue win >>> 1 ^^^ 0x10000000#32,
      .ofNat 3 (tokenLength win), .ofNat 32 (tokenLength win), 0#64⟩ :=
  (refh_response win rem).trans (if_pos hfit)

theorem refh_response_of_lt (hshort : rem.toNat < tokenLength win) :
    responseOf (refhResult ⟨win, rem⟩) = .zeros .truncated :=
  (refh_response win rem).trans (if_neg (Nat.not_le.mpr hshort))

/-! ## REFH beside STRH (R81) -/

/-- A header that STRH gives a kind is in the slice. -/
theorem tokenLength_le_of_strh_kind (h : (responseOf (strhResult ⟨win, rem⟩)).kind ≠ .none) :
    tokenLength win ≤ rem.toNat := by
  by_contra hshort
  rw [strh_response_of_lt (Nat.not_le.mp hshort)] at h
  exact h rfl

/-- A header that does not fit faults in both, and a reference has one spelling and one biased index for both. -/
theorem refh_response_eq_strh (h : (responseOf (strhResult ⟨win, rem⟩)).kind = .none ∨
    (responseOf (strhResult ⟨win, rem⟩)).kind = .reference) :
    responseOf (refhResult ⟨win, rem⟩) = responseOf (strhResult ⟨win, rem⟩) := by
  obtain hshort | hfit := Nat.lt_or_ge rem.toNat (tokenLength win)
  · rw [refh_response_of_lt hshort, strh_response_of_lt hshort]
  · rw [strh_response_of_le hfit] at h ⊢
    rw [refh_response_of_le hfit]
    split_ifs at h with hone hd
    · cases h <;> contradiction
    · rw [if_neg hone, if_pos hd, hd]
      rfl
    · cases h <;> contradiction

/-- REFH knows no sentinel: the header 1 is to it an inline header of payload 0, and the bias is its whole `VALUE`. -/
theorem refh_response_of_strh_empty (h : (responseOf (strhResult ⟨win, rem⟩)).kind = .empty) :
    responseOf (refhResult ⟨win, rem⟩) =
      { responseOf (strhResult ⟨win, rem⟩) with kind := .inline, value := 0x10000000#32 } := by
  obtain ⟨hfit, hone⟩ := (strh_kind_eq_empty_iff win rem).mp h
  rw [refh_response_of_le hfit, strh_response_of_le hfit, if_pos hone, hone]
  rfl

/-- A literal's length is biased by REFH as an index is. -/
theorem refh_response_of_strh_inline (h : (responseOf (strhResult ⟨win, rem⟩)).kind = .inline) :
    responseOf (refhResult ⟨win, rem⟩) =
      { responseOf (strhResult ⟨win, rem⟩) with
        value := (responseOf (strhResult ⟨win, rem⟩)).value ^^^ 0x10000000#32 } := by
  have hfit : tokenLength win ≤ rem.toNat := tokenLength_le_of_strh_kind (by rw [h]; decide)
  obtain ⟨-, hd, hrsp⟩ := literal_of_strh_inline h
  rw [refh_response_of_le hfit, hrsp, if_pos hd]

end Sys2Proof.Machine
end

section
/-! The statements about the reference operation (43_reference.md), settled. -/

namespace Sys2Proof.Machine

/-- Settles O19: the two branches of REFH's response, under the frame every request has. -/
theorem refhGivesBiasedPayload : Obligations.RefhGivesBiasedPayload := by
  unfold Obligations.RefhGivesBiasedPayload
  intro win rem s
  exact ⟨fun hfit => exec_of_response (op := 4#3) (refh_response_of_le hfit) s,
    fun hshort => exec_of_response (op := 4#3) (refh_response_of_lt hshort) s⟩

/-- Settles O39: REFH's response from STRH's, by the kind STRH gives. -/
theorem refhDiffersFromStrhInTwoWays : Obligations.RefhDiffersFromStrhInTwoWays := by
  unfold Obligations.RefhDiffersFromStrhInTwoWays
  intro win rem s
  exact ⟨_, _, answers_ofRequest 4#3 win rem s, answers_ofRequest 2#3 win rem s, refh_response_eq_strh,
    refh_response_of_strh_empty, refh_response_of_strh_inline⟩

end Sys2Proof.Machine
end

section
/-! SUPPORT. What a response says was consumed, what a program line's step leaves, and the run of a program from any
state that holds the buffer: the lemmas the statements about sequencing (44_sequencing.md) are settled by. -/

namespace Sys2Proof.Machine

/-! ## Bytes consumed (R13, R86) -/

/-- `HB` and `NB` of an operation on a slice of `rem` bytes: the header lies within what is consumed, that lies within
the slice, and both keep to the bounds of R13. -/
structure Response.ConsumesWithin (r : Response) (rem : Nat) : Prop where
  hb_le : r.hb.toNat ≤ 4
  hb_le_nb : r.hb.toNat ≤ r.nb.toNat
  nb_le_rem : r.nb.toNat ≤ rem
  nb_le : r.nb.toNat ≤ 0x10000003

/-- A header of `n` bytes and `L` bytes after it, when the slice has them all. -/
theorem Response.ConsumesWithin.of_fits {n L rem : Nat} (hn : n ≤ 4) (hL : L < 2 ^ 28) (hfit : n + L ≤ rem)
    (status : Status) (kind : Kind) (value : Word32) (dout : Word64) :
    Response.ConsumesWithin ⟨status, kind, value, .ofNat 3 n, .ofNat 32 (n + L), dout⟩ rem := by
  have hhb : (BitVec.ofNat 3 n).toNat = n := by rw [BitVec.toNat_ofNat]; omega
  have hnb : (BitVec.ofNat 32 (n + L)).toNat = n + L := by rw [BitVec.toNat_ofNat]; omega
  constructor <;> simp only [hhb, hnb] <;> omega

theorem Response.ConsumesWithin.of_token {win : Word64} {rem : Nat} (hfit : tokenLength win ≤ rem) (status : Status)
    (kind : Kind) (value : Word32) (dout : Word64) : Response.ConsumesWithin
      ⟨status, kind, value, .ofNat 3 (tokenLength win), .ofNat 32 (tokenLength win), dout⟩ rem :=
  .of_fits (L := 0) (tokenLength_le win) (by decide) hfit _ _ _ _

theorem Response.ConsumesWithin.zeros (st : Status) (rem : Nat) : (Response.zeros st).ConsumesWithin rem :=
  .of_fits (n := 0) (L := 0) (by decide) (by decide) (Nat.zero_le rem) _ _ _ _

/-- The operations that consume their token alone (R66, R67, R75, R80). -/
theorem withToken_consumesWithin (kind : BitVec 29 → Kind) (value : BitVec 29 → Word32) (sl : Slice) :
    (responseOf (withToken sl fun h n => .ok (.done (kind h) (value h) n (.ofNat 32 n) 0#64))).ConsumesWithin
      sl.rem.toNat := by
  rw [withToken_eq]
  split_ifs with hfit
  · exact .of_token hfit _ _ _ _
  · exact .zeros _ _

theorem strx_consumesWithin (win : Word64) (rem : Word32) :
    (responseOf (strxResult ⟨win, rem⟩)).ConsumesWithin rem.toNat := by
  rw [strx_response]
  split_ifs with hfit hone hd hbody
  · exact .of_token hfit _ _ _ _
  · exact .zeros _ _
  · exact .of_fits (tokenLength_le win) (payload_toNat_lt win) (Nat.not_lt.mp hbody) _ _ _ _
  · exact .of_token hfit _ _ _ _
  · exact .zeros _ _

theorem ddec_consumesWithin (win : Word64) (rem : Word32) :
    (responseOf (ddecResult ⟨win, rem⟩)).ConsumesWithin rem.toNat := by
  rw [ddec_response]
  split_ifs with hshort
  · exact .zeros _ _
  · exact .of_fits (n := 0) (L := 8) (by decide) (by decide) (by omega) _ _ _ _

/-- Every response consumes within the slice; DENC, whose `REM` does not matter, consumes nothing. -/
theorem response_consumesWithin (op : BitVec 3) (win : Word64) (rem : Word32) :
    (responseOf (requestResult op win rem)).ConsumesWithin rem.toNat := by
  rcases code_cases op with rfl | rfl | rfl | rfl | rfl | rfl | rfl | rfl
  · exact withToken_consumesWithin _ _ ⟨win, rem⟩
  · exact withToken_consumesWithin _ _ ⟨win, rem⟩
  · exact withToken_consumesWithin _ _ ⟨win, rem⟩
  · exact strx_consumesWithin win rem
  · exact withToken_consumesWithin _ _ ⟨win, rem⟩
  · exact ddec_consumesWithin win rem
  · rw [requestResult_denc, denc_response]
    exact .of_fits (n := 0) (L := 0) (by decide) (by decide) (Nat.zero_le _) _ _ _ _
  · exact .zeros _ _

theorem response_sound (op : BitVec 3) (win : Word64) (rem : Word32) :
    (responseOf (requestResult op win rem)).Sound := by
  obtain ⟨r, hr, hzeros⟩ := faultResponseIsZero op win rem .reset
  obtain rfl := (answers_ofRequest_iff op win rem .reset r).mp hr
  have hconsumes := response_consumesWithin op win rem
  exact ⟨hzeros, hconsumes.hb_le, hconsumes.nb_le⟩

/-- A fault consumes nothing (R23). -/
theorem Response.Sound.nb_of_fault {r : Response} (h : r.Sound) (hfault : r.status ≠ .ok) : r.nb = 0#32 := by
  rw [h.fault_zeros hfault]
  rfl

/-! ## A program line's step (R85, R86) -/

/-- The state in which the driver has taken line `l` off its program and the unit has answered it: what the driver then
reads with `State.chain`. -/
def State.answerLine (s : State) (l : Line) (ls : List Line) : State :=
  { s with program := ls, op := l.op, win := s.lineWin l, rem := s.lineRem,
           rsp := responseOf (requestResult l.op (s.lineWin l) s.lineRem) }

section
variable (s : State) (l : Line) (ls : List Line)

@[simp] theorem State.answerLine_rsp :
    (s.answerLine l ls).rsp = responseOf (requestResult l.op (s.lineWin l) s.lineRem) := rfl

@[simp] theorem State.answerLine_requests : (s.answerLine l ls).requests = s.requests := rfl

@[simp] theorem State.answerLine_mem : (s.answerLine l ls).mem = s.mem := rfl

@[simp] theorem State.answerLine_len : (s.answerLine l ls).len = s.len := rfl

@[simp] theorem State.answerLine_cur : (s.answerLine l ls).cur = s.cur := rfl

@[simp] theorem State.answerLine_program : (s.answerLine l ls).program = ls := rfl

@[simp] theorem State.answerLine_responses : (s.answerLine l ls).responses = s.responses := rfl

theorem exec_line : exec (.ofRequest l.op (s.lineWin l) s.lineRem) { s with program := ls } =
    .next (s.answerLine l ls) :=
  exec_request_next _ _ _ _

/-- The line's response consumes at most what is left of the buffer. -/
theorem State.answerLine_nb_le : (s.answerLine l ls).rsp.nb.toNat ≤ s.len - s.cur := by
  have hnb := (response_consumesWithin l.op (s.lineWin l) s.lineRem).nb_le_rem
  rw [State.lineRem_toNat] at hnb
  exact hnb.trans (Nat.min_le_left _ _)

end

theorem step_eq_chain_answerLine {s : State} {l : Line} {ls : List Line} (hreq : s.requests = [])
    (hp : s.program = l :: ls) (hc : s.cur ≤ s.len) : step s = .next (s.answerLine l ls).chain :=
  step_of_line hreq hp hc

theorem step_of_cursor_beyond {s : State} {l : Line} {ls : List Line} (hreq : s.requests = [])
    (hp : s.program = l :: ls) (hc : s.len < s.cur) : step s = .fault .cursorBeyondBuffer := by
  unfold step
  rw [hreq, hp]
  exact if_pos hc

/-- The cursor moves by `NB` after a fault too, because a fault's `NB` is 0. -/
theorem State.chain_cur_of_sound {s : State} (h : s.rsp.Sound) : s.chain.cur = s.cur + s.rsp.nb.toNat := by
  by_cases hok : s.rsp.status = .ok
  · exact s.chain_cur_ok hok
  · rw [s.chain_cur_fault hok, h.nb_of_fault hok]
    rfl

theorem chain_answerLine_cur (s : State) (l : Line) (ls : List Line) :
    (s.answerLine l ls).chain.cur = s.cur + (s.answerLine l ls).rsp.nb.toNat :=
  State.chain_cur_of_sound (s := s.answerLine l ls) (response_sound _ _ _)

theorem chain_answerLine_cur_le {s : State} (l : Line) (ls : List Line) (hc : s.cur ≤ s.len) :
    (s.answerLine l ls).chain.cur ≤ (s.answerLine l ls).chain.len := by
  have hnb := s.answerLine_nb_le l ls
  rw [chain_answerLine_cur, State.chain_len, State.answerLine_len]
  omega

/-! ## The invariant (R85 to R87) -/

/-- The invariant reads the ports' response and no other port, and no waiting request. -/
theorem State.Inv.withPorts {s : State} (h : s.Inv) (requests : List (List Byte)) (op : BitVec 3) (win : Word64)
    (rem : Word32) {r : Response} (hr : r.Sound) :
    State.Inv { s with requests := requests, op := op, win := win, rem := rem, rsp := r } :=
  { h with rsp_sound := hr }

/-- While a program line waits, the run has seen no fault. -/
theorem State.Inv.ok_of_program {s : State} (h : s.Inv) {l : Line} {ls : List Line} (hp : s.program = l :: ls) :
    ∀ r ∈ s.responses, r.status = .ok := by
  intro r hr
  by_contra hfault
  have hnil := h.fault_ends ⟨r, hr, hfault⟩
  rw [hp] at hnil
  cases hnil

theorem State.Inv.chain_answerLine {s : State} (h : s.Inv) {l : Line} {ls : List Line} (hp : s.program = l :: ls) :
    (s.answerLine l ls).chain.Inv := by
  have hok := h.ok_of_program hp
  have hsound : (s.answerLine l ls).rsp.Sound := response_sound _ _ _
  have hresponses : (s.answerLine l ls).chain.responses = s.responses ++ [(s.answerLine l ls).rsp] :=
    State.chain_responses _
  constructor
  case mem_wf => simpa using h.mem_wf
  case mem_in => simpa using h.mem_in
  case cur_le => exact chain_answerLine_cur_le l ls h.cur_le
  case rsp_sound => simpa using hsound
  case log_sound =>
    rw [hresponses]
    exact List.forall_mem_append.mpr ⟨h.log_sound, List.forall_mem_singleton.mpr hsound⟩
  case cur_sum =>
    rw [hresponses, chain_answerLine_cur, h.cur_sum]
    simp
  case fault_last =>
    rw [hresponses, List.dropLast_concat]
    exact hok
  case fault_ends =>
    rintro ⟨r, hr, hfault⟩
    rw [hresponses, List.mem_append, List.mem_singleton] at hr
    obtain hr | rfl := hr
    · exact absurd (hok r hr) hfault
    · exact State.chain_program_fault _ hfault

/-! ## A run of the program (R87) -/

/-- The driver's buffer is these bytes. -/
structure State.HoldsBuffer (s : State) (bs : List Byte) : Prop where
  len_eq : s.len = bs.length
  bufByte_eq : ∀ a, s.bufByte a = bs[a]?

theorem State.holdsBuffer_load (s : State) (bs : List Byte) (ls : List Line) : (s.load bs ls).HoldsBuffer bs :=
  ⟨rfl, s.bufByte_load_eq_getElem? bs ls⟩

theorem State.HoldsBuffer.chain_answerLine {s : State} {bs : List Byte} (h : s.HoldsBuffer bs) (l : Line)
    (ls : List Line) : (s.answerLine l ls).chain.HoldsBuffer bs where
  len_eq := (State.chain_len _).trans h.len_eq
  bufByte_eq a := (State.bufByte_congr (State.chain_mem _) (State.chain_len _) a).trans (h.bufByte_eq a)

/-- The machine's driver makes the request R85 describes on the list of bytes. -/
theorem State.HoldsBuffer.lineRequest_eq {s : State} {bs : List Byte} (h : s.HoldsBuffer bs) (l : Line) :
    s.lineRequest l = bufferRequest bs s.cur l := by
  have hlane : s.lineLane l = fun i => (bs[s.cur + i]?).getD (lane l.x i) :=
    funext fun i => by rw [State.lineLane, h.bufByte_eq]
  rw [State.lineRequest, State.lineWin, State.lineRem, hlane, h.len_eq]
  rfl

theorem State.HoldsBuffer.answers_line {s : State} {bs : List Byte} (h : s.HoldsBuffer bs) (l : Line)
    (ls : List Line) : Answers (bufferRequest bs s.cur l) .reset (s.answerLine l ls).rsp :=
  h.lineRequest_eq l ▸ answers_ofRequest _ _ _ _

/-- From any state that holds the buffer, the rest of the program runs as the driver's run says, and its responses join
those of the run so far. -/
theorem run_program {bs : List Byte} (ls : List Line) (s : State) (hreq : s.requests = []) (hp : s.program = ls)
    (hbuf : s.HoldsBuffer bs) (hc : s.cur ≤ s.len) :
    ∃ t rs, Host.Core.run core ls.length s = .next t ∧ t.responses = s.responses ++ rs ∧
      DriverRun bs s.cur ls rs t.cur ∧ t.program = [] ∧ t.cur ≤ bs.length := by
  induction ls generalizing s with
  | nil => exact ⟨s, [], rfl, (List.append_nil _).symm, .done _, hp, hbuf.len_eq ▸ hc⟩
  | cons l ls ih =>
    set u := (s.answerLine l ls).chain
    set r := (s.answerLine l ls).rsp
    have hrun : Host.Core.run core (ls.length + 1) s = Host.Core.run core ls.length u :=
      run_core_succ _ (step_eq_chain_answerLine hreq hp hc)
    have hreq' : u.requests = [] := (State.chain_requests _).trans hreq
    have hresponses : u.responses = s.responses ++ [r] := State.chain_responses _
    have hcur : u.cur ≤ u.len := chain_answerLine_cur_le l ls hc
    have hanswers := hbuf.answers_line l ls
    have hbuf' : u.HoldsBuffer bs := hbuf.chain_answerLine l ls
    by_cases hok : r.status = .ok
    · obtain ⟨t, rs, hrest, hlog, hdriver, hend⟩ := ih u hreq' (State.chain_program_ok _ hok) hbuf' hcur
      have hadvance : u.cur = s.cur + r.nb.toNat := State.chain_cur_ok _ hok
      refine ⟨t, r :: rs, hrun.trans hrest, ?_, ?_, hend⟩
      · rw [hlog, hresponses, List.append_assoc, List.singleton_append]
      · exact .next _ l ls r rs _ hanswers hok (hadvance ▸ hdriver)
    · have hover : u.program = [] := State.chain_program_fault _ hok
      have hstay : u.cur = s.cur := State.chain_cur_fault _ hok
      refine ⟨u, [r], hrun.trans (run_core_idle hreq' hover _), hresponses, ?_, hover, hbuf'.len_eq ▸ hcur⟩
      rw [hstay]
      exact .fault _ l ls r hanswers hok

end Sys2Proof.Machine
end

section
/-! The statements about the driver and its programs (44_sequencing.md), settled. -/

namespace Sys2Proof.Machine

/-- Settles O46, by what the step was: an offered request changes the ports alone, a program line is answered and then
read by the driver, and an idle step changes nothing. -/
theorem stepKeepsTheInvariant : Obligations.StepKeepsTheInvariant := by
  unfold Obligations.StepKeepsTheInvariant
  intro s t hinv hstep
  obtain ⟨_, rest, op, win, rem, -, -, rfl⟩ | ⟨l, ls, -, hp, -, rfl⟩ | ⟨-, -, rfl⟩ := step_next_cases hstep
  · exact hinv.withPorts rest op win rem (response_sound op win rem)
  · exact hinv.chain_answerLine hp
  · exact hinv

/-- Settles O9 with the window and the length the driver makes of the line. -/
theorem stepRunsProgramLine : Obligations.StepRunsProgramLine := by
  unfold Obligations.StepRunsProgramLine
  intro s l ls hreq hp hc
  refine ⟨s.lineWin l, s.lineRem, s.answerLine l ls, s.lineRem_toNat, fun hop i hi hin => ?_, fun hop i hi hout => ?_,
    fun hop => if_pos hop, exec_line s l ls, step_eq_chain_answerLine hreq hp hc⟩
  · rw [State.lane_lineWin hop hi, State.bufByte, if_pos hin, Option.getD_some]
  · rw [State.lane_lineWin hop hi, State.bufByte, if_neg (Nat.not_lt.mpr hout), Option.getD_none]

/-- Settles O11: the line consumes at most what is left of the buffer. -/
theorem cursorChains : Obligations.CursorChains := by
  unfold Obligations.CursorChains
  intro s l ls hreq hp hc
  refine ⟨_, step_eq_chain_answerLine hreq hp hc, chain_answerLine_cur_le l ls hc, State.chain_len _, ?_⟩
  rw [State.chain_rsp, State.chain_responses]
  exact ⟨rfl, fun hok => ⟨State.chain_cur_ok _ hok, State.chain_program_ok _ hok⟩, State.chain_cur_fault _⟩

/-- Settles O13, by induction on the program (`run_program`) from the loaded state. -/
theorem programRunsAsDriverSays : Obligations.ProgramRunsAsDriverSays := by
  unfold Obligations.ProgramRunsAsDriverSays
  intro s bs ls hreq
  obtain ⟨t, rs, hrun, hlog, hdriver, hend⟩ :=
    run_program ls (s.load bs ls) hreq rfl (s.holdsBuffer_load bs ls) (Nat.zero_le _)
  obtain rfl : t.responses = rs := hlog
  exact ⟨t, hrun, hdriver, hend⟩

/-- Settles O32. -/
theorem consumedBytesLieInTheSlice : Obligations.ConsumedBytesLieInTheSlice := by
  unfold Obligations.ConsumedBytesLieInTheSlice
  intro op win rem s
  have hconsumes := response_consumesWithin op win rem
  refine ⟨_, answers_ofRequest op win rem s, fun _ => ⟨hconsumes.hb_le_nb, hconsumes.nb_le_rem⟩, ?_⟩
  rintro rfl
  rw [requestResult_denc, denc_response]
  exact ⟨rfl, rfl⟩

/-- Settles O48: loading writes the buffer's bytes, each below `LEN`, into empty memory, and starts a run. -/
theorem loadingMeetsTheInvariant : Obligations.LoadingMeetsTheInvariant := by
  unfold Obligations.LoadingMeetsTheInvariant
  intro s bs ls hsound
  constructor
  case mem_wf => exact Memory.wf_writeBytes rfl 0 bs
  case mem_in =>
    intro c hc
    obtain hnil | hlt := Memory.mem_writeBytes hc
    · cases hnil
    · rwa [Nat.zero_add] at hlt
  case cur_le => exact Nat.zero_le _
  case rsp_sound => exact hsound
  case log_sound => exact nofun
  case cur_sum => rfl
  case fault_last => exact nofun
  case fault_ends => exact nofun

/-- Settles O10. -/
theorem stepIdlesOrStopsByName : Obligations.StepIdlesOrStopsByName := by
  unfold Obligations.StepIdlesOrStopsByName
  exact ⟨fun _ hreq hp => step_of_idle hreq hp, fun _ _ _ hreq hp hc => step_of_cursor_beyond hreq hp hc⟩

/-- Settles O12: the driver drops its program at a fault, and then there is nothing to answer. -/
theorem faultEndsTheRun : Obligations.FaultEndsTheRun := by
  unfold Obligations.FaultEndsTheRun
  intro s l ls hreq hp hc
  refine ⟨_, step_eq_chain_answerLine hreq hp hc, fun hfault => ?_⟩
  rw [State.chain_rsp] at hfault
  have hover := State.chain_program_fault _ hfault
  exact ⟨hover, step_of_idle ((State.chain_requests _).trans hreq) hover⟩

end Sys2Proof.Machine
end

section
/-! SUPPORT. When an operation answers TRUNCATED, and that a longer slice keeps a result: the lemmas the statements
about the exceptions (60_exceptions.md) are settled by. -/

namespace Sys2Proof.Machine

/-! ## The slice ends before the token (R96) -/

/-- The conditions of R96's first row, flag by flag, say that the token does not fit. -/
theorem tokenMissing_iff (win : Word64) (rem : Word32) : TokenMissing win rem ↔ rem.toNat < tokenLength win := by
  have hrem : ∀ k : Word32, rem = k ↔ rem.toNat = k.toNat := fun _ => BitVec.toNat_inj.symm
  rw [TokenMissing, hrem 0#32, hrem 1#32, hrem 2#32, hrem 3#32]
  obtain ⟨h0, hn, -⟩ | ⟨h0, h1, hn, -⟩ | ⟨h0, h1, h2, hn, -⟩ | ⟨h0, h1, h2, hn, -⟩ := token_cases win <;>
    simp only [*, BitVec.toNat_ofNat, Bool.false_eq_true, and_true, and_false, false_and, or_false] <;> omega

/-- The operations that need their token alone (U29, I29, STRH, REFH). -/
theorem withToken_truncated_iff (kind : BitVec 29 → Kind) (value : BitVec 29 → Word32) (win : Word64) (rem : Word32) :
    (responseOf (withToken ⟨win, rem⟩ fun h n => .ok (.done (kind h) (value h) n (.ofNat 32 n) 0#64))).status =
      .truncated ↔ TokenMissing win rem := by
  rw [tokenMissing_iff, withToken_eq]
  split_ifs with hfit
  · exact iff_of_false nofun (Nat.not_lt.mpr hfit)
  · exact iff_of_true rfl (Nat.not_le.mp hfit)

/-- STRX needs its token, and the body of a literal. -/
theorem strx_truncated_iff (win : Word64) (rem : Word32) :
    (responseOf (strxResult ⟨win, rem⟩)).status = .truncated ↔
      TokenMissing win rem ∨ ((tokenValue win).getLsbD 0 = true ∧ tokenValue win ≠ 1#32 ∧
        rem.toNat < tokenLength win + (tokenValue win >>> 1).toNat) := by
  rw [tokenMissing_iff, strx_response]
  split_ifs with hfit hone hd hbody
  · exact iff_of_false nofun (not_or.mpr ⟨Nat.not_lt.mpr hfit, fun ⟨_, hne, _⟩ => hne hone⟩)
  · exact iff_of_true rfl (.inr ⟨hd, hone, hbody⟩)
  · exact iff_of_false nofun (not_or.mpr ⟨Nat.not_lt.mpr hfit, fun ⟨_, _, hlt⟩ => hbody hlt⟩)
  · exact iff_of_false nofun (not_or.mpr ⟨Nat.not_lt.mpr hfit, fun ⟨hbit, _⟩ => hd hbit⟩)
  · exact iff_of_true rfl (.inl (Nat.not_le.mp hfit))

theorem ddec_truncated_iff (win : Word64) (rem : Word32) :
    (responseOf (ddecResult ⟨win, rem⟩)).status = .truncated ↔ rem.toNat < 8 := by
  rw [ddec_response]
  split_ifs with hshort
  · exact iff_of_true rfl hshort
  · exact iff_of_false nofun hshort

/-! ## A longer slice keeps a result (F5) -/

/-- A response with `STATUS = OK` is one the operation gave, and no exception's. -/
theorem result_eq_ok_of_status {e : Except Trap Response} (hok : (responseOf e).status = .ok) :
    e = .ok (responseOf e) := by
  cases e with
  | ok r => rfl
  | error t => cases t <;> cases hok

section
variable {win : Word64} {rem rem' : Word32} {r : Response} (hle : rem.toNat ≤ rem'.toNat)
include hle

/-- The token that fits is the same token in a longer slice, so the read's result is kept if its continuation's is. -/
theorem withToken_ok_mono {k k' : BitVec 29 → Nat → Except Trap Response}
    (hk : ∀ h n, k h n = .ok r → k' h n = .ok r) (h : withToken ⟨win, rem⟩ k = .ok r) :
    withToken ⟨win, rem'⟩ k' = .ok r := by
  rw [withToken_eq] at h ⊢
  split_ifs at h with hfit
  rw [if_pos (hfit.trans hle)]
  exact hk _ _ h

theorem strxResult_ok_mono (h : strxResult ⟨win, rem⟩ = .ok r) : strxResult ⟨win, rem'⟩ = .ok r := by
  refine withToken_ok_mono hle (fun hdr n hr => ?_) h
  cases hkind : stringKind hdr with
  | inline =>
    simp only [hkind, BitVec.lt_def] at hr ⊢
    split_ifs at hr with hbody
    rwa [if_neg (by omega)]
  | none | reference | empty => simpa only [hkind] using hr

theorem ddecResult_ok_mono (h : ddecResult ⟨win, rem⟩ = .ok r) : ddecResult ⟨win, rem'⟩ = .ok r := by
  simp only [ddecResult, BitVec.lt_def] at h ⊢
  split_ifs at h with hshort
  rwa [if_neg (by omega)]

/-- What an operation gives on a slice it gives on every longer one; an exception alone may go away. -/
theorem requestResult_ok_mono {op : BitVec 3} (h : requestResult op win rem = .ok r) :
    requestResult op win rem' = .ok r := by
  rcases code_cases op with rfl | rfl | rfl | rfl | rfl | rfl | rfl | rfl
  · exact withToken_ok_mono hle (fun _ _ => id) h
  · exact withToken_ok_mono hle (fun _ _ => id) h
  · exact withToken_ok_mono hle (fun _ _ => id) h
  · exact strxResult_ok_mono hle h
  · exact withToken_ok_mono hle (fun _ _ => id) h
  · exact ddecResult_ok_mono hle h
  · exact h
  · cases h

end

end Sys2Proof.Machine
end

section
/-! The statements about the exceptions (60_exceptions.md), settled. -/

namespace Sys2Proof.Machine

/-- Settles O29: each operation's response is TRUNCATED exactly under its row of R96. -/
theorem truncatedExactlyWhenShort : Obligations.TruncatedExactlyWhenShort := by
  unfold Obligations.TruncatedExactlyWhenShort
  intro win rem s
  refine ⟨?_, ?_, ?_, ?_⟩
  · simp only [List.forall_mem_cons]
    exact ⟨⟨_, answers_ofRequest 0#3 win rem s, withToken_truncated_iff _ _ win rem⟩,
      ⟨_, answers_ofRequest 1#3 win rem s, withToken_truncated_iff _ _ win rem⟩,
      ⟨_, answers_ofRequest 2#3 win rem s, withToken_truncated_iff _ _ win rem⟩,
      ⟨_, answers_ofRequest 4#3 win rem s, withToken_truncated_iff _ _ win rem⟩, nofun⟩
  · exact ⟨_, answers_ofRequest 3#3 win rem s, strx_truncated_iff win rem⟩
  · exact ⟨_, answers_ofRequest 5#3 win rem s, ddec_truncated_iff win rem⟩
  · exact ⟨_, answers_ofRequest 6#3 win rem s, nofun⟩

/-- Settles O33: an `OK` response is the operation's own result, which a longer slice keeps. -/
theorem longerSliceKeepsTheResponse : Obligations.LongerSliceKeepsTheResponse := by
  unfold Obligations.LongerSliceKeepsTheResponse
  intro op win rem rem' s s' r hr hok hle
  obtain rfl := (answers_ofRequest_iff op win rem s r).mp hr
  have hkept := requestResult_ok_mono hle (result_eq_ok_of_status hok)
  rw [answers_ofRequest_iff, hkept, responseOf_ok]

/-- Settles O22: code 7's result is the exception, of no byte and no length. -/
theorem reservedCodeTakesIllegalOp : Obligations.ReservedCodeTakesIllegalOp := by
  unfold Obligations.ReservedCodeTakesIllegalOp
  intro win rem s
  have hrsp : responseOf (requestResult 7#3 win rem) = .zeros .illegalOp := by
    rw [requestResult_reserved7, responseOf_illegalOp]
  exact exec_of_response hrsp s

end Sys2Proof.Machine
end

section
/-! The statement about reset (70_reset_and_hazards.md R115), settled. -/

namespace Sys2Proof.Machine

/-- Settles O50: the first request is the only one offered, and its response is a function of the request (R14). -/
theorem resetNeedsNoWarmUp : Obligations.ResetNeedsNoWarmUp := by
  unfold Obligations.ResetNeedsNoWarmUp
  refine ⟨rfl, fun op win rem s => ?_⟩
  have hstep := step_of_offered (State.reset.offerFirst_requests (encode (.ofRequest op win rem)))
  exact ⟨_, hstep, answers_ofRequest op win rem s⟩

end Sys2Proof.Machine
end
